-- ==== Sys2Proof/Word.lean ====
section
/-! DEFINITION. The word types of the CHIP-8 core and their plainest arithmetic (spec/00_scope.md R8, R12). -/

namespace Sys2Proof

/-- An 8-bit unsigned value: a general register, a timer or a memory cell (R8). -/
abbrev Byte := BitVec 8

/-- A 16-bit unsigned value: I, PC, a return address or an instruction word (R8). -/
abbrev Word := BitVec 16

/-- The 12-bit address immediate `nnn` (R18, R71). -/
abbrev Addr12 := BitVec 12

/-- The index of a general register, or of a key: 0 to 15 (R21, R35). -/
abbrev Index := Fin 16

/-- VF, the register that doubles as the flag register (R22). -/
abbrev vfIndex : Index := 15

/-- The greatest address of the 4096-byte memory (R29, R55). -/
abbrev lastAddress : Nat := 0xFFF

/-- The greatest PC from which an instruction can be fetched, since PC + 1 is read too (R94). -/
abbrev lastFetchAddress : Nat := 0xFFE

/-- The entry point and the address a program is loaded at (R8, R60). -/
abbrev programStart : Nat := 0x200

/-- The maximum program length, 4096 - 512 bytes (R8). -/
abbrev maxProgramLength : Nat := 3584

end Sys2Proof
end

