-- ==== Sys2Proof/Config.lean ====
section
/-! DEFINITION. The configuration record of the core (spec/00_scope.md R9) and the free value of Cxkk (R10, R142). -/

namespace Sys2Proof

/-- `SHIFT_FLAG_MODE`: the VF value of 8xy6 and 8xyE (R9; 92 D1). -/
inductive ShiftFlagMode where
  | source
  | canonical
  deriving DecidableEq, Repr

/-- `STACK_CAP`: the number of return addresses the call stack holds, one of the two values R9 allows (92 D2). -/
inductive StackCap where
  | fifteen
  | sixteen
  deriving DecidableEq, Repr

/-- `FONT_ADDR_MODE`: the address Fx29 computes (R9; 92 D4). -/
inductive FontAddrMode where
  | times5
  | lowNibble
  deriving DecidableEq, Repr

/-- `UNLISTED_OPS`: whether Annn, Bnnn and 8xy7 execute or are invalid opcodes (R9; 92 D5). -/
inductive UnlistedOps where
  | standard
  | invalid
  deriving DecidableEq, Repr

/-- `SUBN_UNDERFLOW`: the result of 8xy7 when Vy < Vx (R9; 92 D6). -/
inductive SubnUnderflow where
  | saturate
  | wrap
  deriving DecidableEq, Repr

/-- `FONT`: the 80 bytes that stand at 0x000-0x04F at construction (R9, R31; 92 D3). -/
abbrev Font := Vector Byte 80

/-- The configuration record `Cfg` of R9, all six parameters. -/
structure Cfg where
  shiftFlagMode : ShiftFlagMode
  stackCap : StackCap
  font : Font
  fontAddrMode : FontAddrMode
  unlistedOps : UnlistedOps
  subnUnderflow : SubnUnderflow
  deriving DecidableEq, Repr

/-- FREE VALUE (R10, R142; 93 U1; notes/assumptions/1): the random byte of the n-th execution of Cxkk.
It has no body, so nothing can be proved of its value: a claim holds whatever bytes the source supplies. -/
opaque Config.freeByte : Nat → Byte

end Sys2Proof
end

