-- ==== Sys2Proof/Syntax.lean ====
section
/-! DEFINITION. The instructions of the core as syntax: one constructor per row of spec/opcode_table.json (spec/30_encoding.md R73). -/

namespace Sys2Proof

/-- One constructor per row of R73's opcode map. `x` and `y` are register indices, `kk` a byte immediate, `nnn` an
address immediate and `n` a row count (R71, R72). -/
inductive Instr where
  /-- `0nnn`, nnn neither 0x0E0 nor 0x0EE: SYS nnn (R101) -/
  | sys (nnn : Addr12)
  /-- `00E0`: CLS (R161) -/
  | cls
  /-- `00EE`: RET (R111) -/
  | ret
  /-- `1nnn`: JP nnn (R112) -/
  | jp (nnn : Addr12)
  /-- `2nnn`: CALL nnn (R113) -/
  | call (nnn : Addr12)
  /-- `3xkk`: SE Vx, kk (R115) -/
  | seImm (x : Index) (kk : Byte)
  /-- `4xkk`: SNE Vx, kk (R116) -/
  | sneImm (x : Index) (kk : Byte)
  /-- `5xy0`: SE Vx, Vy (R117) -/
  | seReg (x y : Index)
  /-- `6xkk`: LD Vx, kk (R131) -/
  | ldImm (x : Index) (kk : Byte)
  /-- `7xkk`: ADD Vx, kk (R132) -/
  | addImm (x : Index) (kk : Byte)
  /-- `8xy0`: LD Vx, Vy (R133) -/
  | ldReg (x y : Index)
  /-- `8xy1`: OR Vx, Vy (R134) -/
  | orReg (x y : Index)
  /-- `8xy2`: AND Vx, Vy (R135) -/
  | andReg (x y : Index)
  /-- `8xy3`: XOR Vx, Vy (R136) -/
  | xorReg (x y : Index)
  /-- `8xy4`: ADD Vx, Vy (R137) -/
  | addReg (x y : Index)
  /-- `8xy5`: SUB Vx, Vy (R138) -/
  | subReg (x y : Index)
  /-- `8xy6`: SHR Vx (R139); `y` is ignored by the effect and kept so that a word can be printed back (R86) -/
  | shr (x y : Index)
  /-- `8xy7`: SUBN Vx, Vy (R140), present when UNLISTED_OPS = standard -/
  | subn (x y : Index)
  /-- `8xyE`: SHL Vx, Vy (R141) -/
  | shl (x y : Index)
  /-- `9xy0`: SNE Vx, Vy (R118) -/
  | sneReg (x y : Index)
  /-- `Annn`: LD I, nnn (R200), present when UNLISTED_OPS = standard -/
  | ldI (nnn : Addr12)
  /-- `Bnnn`: JP V0, nnn (R114), present when UNLISTED_OPS = standard -/
  | jpV0 (nnn : Addr12)
  /-- `Cxkk`: RND Vx, kk (R142) -/
  | rnd (x : Index) (kk : Byte)
  /-- `Dxyn`: DRW Vx, Vy, n (R162) -/
  | drw (x y : Index) (n : Fin 16)
  /-- `Ex9E`: SKP Vx (R180) -/
  | skp (x : Index)
  /-- `ExA1`: SKNP Vx (R181) -/
  | sknp (x : Index)
  /-- `Fx07`: LD Vx, DT (R183) -/
  | ldVxDT (x : Index)
  /-- `Fx0A`: LD Vx, K (R184) -/
  | ldVxK (x : Index)
  /-- `Fx15`: LD DT, Vx (R186) -/
  | ldDTVx (x : Index)
  /-- `Fx18`: LD ST, Vx (R187) -/
  | ldSTVx (x : Index)
  /-- `Fx1E`: ADD I, Vx (R201) -/
  | addIVx (x : Index)
  /-- `Fx29`: LD F, Vx (R165) -/
  | ldFVx (x : Index)
  /-- `Fx33`: LD B, Vx (R202) -/
  | ldBVx (x : Index)
  /-- `Fx55`: LD [I], Vx (R203) -/
  | ldMemVx (x : Index)
  /-- `Fx65`: LD Vx, [I] (R204) -/
  | ldVxMem (x : Index)
  deriving DecidableEq, Repr

end Sys2Proof
end

