-- ==== Sys2Proof/WellFormed.lean ====
section
/-! DEFINITION. Which instruction terms stand for a word of the machine under a setting of UNLISTED_OPS (spec/30_encoding.md R73-R79). -/

namespace Sys2Proof

/-- Annn, Bnnn and 8xy7 exist only when `UNLISTED_OPS = standard` (R75, R79). -/
def UnlistedOps.present : UnlistedOps → Bool
  | .standard => true
  | .invalid => false

/-- An instruction is well formed when R73 has a word for it: SYS excludes the two words that are CLS and RET (R74), and the
three unlisted instructions need `UNLISTED_OPS = standard` (R75, R79). Every other field value is valid (R72). -/
def Instr.wellFormed (ops : UnlistedOps) : Instr → Bool
  | .sys nnn => nnn != 0x0E0 && nnn != 0x0EE
  | .cls => true
  | .ret => true
  | .jp _ => true
  | .call _ => true
  | .seImm _ _ => true
  | .sneImm _ _ => true
  | .seReg _ _ => true
  | .ldImm _ _ => true
  | .addImm _ _ => true
  | .ldReg _ _ => true
  | .orReg _ _ => true
  | .andReg _ _ => true
  | .xorReg _ _ => true
  | .addReg _ _ => true
  | .subReg _ _ => true
  | .shr _ _ => true
  | .subn _ _ => ops.present
  | .shl _ _ => true
  | .sneReg _ _ => true
  | .ldI _ => ops.present
  | .jpV0 _ => ops.present
  | .rnd _ _ => true
  | .drw _ _ _ => true
  | .skp _ => true
  | .sknp _ => true
  | .ldVxDT _ => true
  | .ldVxK _ => true
  | .ldDTVx _ => true
  | .ldSTVx _ => true
  | .addIVx _ => true
  | .ldFVx _ => true
  | .ldBVx _ => true
  | .ldMemVx _ => true
  | .ldVxMem _ => true

end Sys2Proof
end

