-- ==== Sys2Proof/Decode.lean ====
section
/-! DEFINITION. Decoding an instruction word by family and sub-field, total on any bytes and rejecting by name, and the encoder
(spec/30_encoding.md R70-R83; byte order spec/20_memory.md R50). -/

namespace Sys2Proof

/-- `family` = w[15:12] (R71). -/
def fieldFamily (w : Word) : Fin 16 := (w.extractLsb' 12 4).toFin

/-- `x` = w[11:8] (R18). -/
def fieldX (w : Word) : Index := (w.extractLsb' 8 4).toFin

/-- `y` = w[7:4] (R18). -/
def fieldY (w : Word) : Index := (w.extractLsb' 4 4).toFin

/-- `n` = w[3:0] (R18). -/
def fieldN (w : Word) : Fin 16 := (w.extractLsb' 0 4).toFin

/-- `kk` = w[7:0] (R18). -/
def fieldKK (w : Word) : Byte := w.extractLsb' 0 8

/-- `nnn` = w[11:0] (R18). -/
def fieldNNN (w : Word) : Addr12 := w.extractLsb' 0 12

/-- Two bytes as one instruction word: the byte at the lower address is w[15:8] (R50). -/
def wordOfBytes (high low : Byte) : Word := high ++ low

/-- The byte of an instruction word that stands at the lower address, w[15:8] (R50). -/
def highByte (w : Word) : Byte := w.extractLsb' 8 8

/-- The byte of an instruction word that stands at the higher address, w[7:0] (R50). -/
def lowByte (w : Word) : Byte := w.extractLsb' 0 8

/-- Why a word, or a byte sequence, is no instruction of R73. -/
inductive DecodeReject where
  /-- fewer than two bytes: no instruction is shorter than one word (R70) -/
  | truncated
  /-- `5xyN` with N ≠ 0 (R78) -/
  | family5SubField
  /-- `8xyN` with N ∈ {8, 9, A, B, C, D, F} (R75) -/
  | family8SubField
  /-- `9xyN` with N ≠ 0 (R78) -/
  | family9SubField
  /-- `ExNN` with NN ∉ {9E, A1} (R76) -/
  | familyESubField
  /-- `FxNN` with NN not one of the nine codes of R77 -/
  | familyFSubField
  /-- `8xy7`, `Annn` or `Bnnn` when UNLISTED_OPS = invalid (R75, R79) -/
  | unlistedOperation
  deriving DecidableEq, Repr

/-- An instruction that exists only when `UNLISTED_OPS = standard` (R75, R79). -/
def unlisted (ops : UnlistedOps) (i : Instr) : Except DecodeReject Instr :=
  if ops.present then .ok i else .error .unlistedOperation

/-- Family 0 decodes by the whole word (R74). -/
def decodeFamily0 (w : Word) : Instr :=
  if w = 0x00E0 then .cls else if w = 0x00EE then .ret else .sys (fieldNNN w)

/-- Family 8 decodes by `n` (R75). -/
def decodeFamily8 (ops : UnlistedOps) (w : Word) : Except DecodeReject Instr :=
  match (fieldN w).val with
  | 0x0 => .ok (.ldReg (fieldX w) (fieldY w))
  | 0x1 => .ok (.orReg (fieldX w) (fieldY w))
  | 0x2 => .ok (.andReg (fieldX w) (fieldY w))
  | 0x3 => .ok (.xorReg (fieldX w) (fieldY w))
  | 0x4 => .ok (.addReg (fieldX w) (fieldY w))
  | 0x5 => .ok (.subReg (fieldX w) (fieldY w))
  | 0x6 => .ok (.shr (fieldX w) (fieldY w))
  | 0x7 => unlisted ops (.subn (fieldX w) (fieldY w))
  | 0xE => .ok (.shl (fieldX w) (fieldY w))
  | _ => .error .family8SubField

/-- Family E decodes by `kk` (R76). -/
def decodeFamilyE (w : Word) : Except DecodeReject Instr :=
  match (fieldKK w).toNat with
  | 0x9E => .ok (.skp (fieldX w))
  | 0xA1 => .ok (.sknp (fieldX w))
  | _ => .error .familyESubField

/-- Family F decodes by `kk` (R77). -/
def decodeFamilyF (w : Word) : Except DecodeReject Instr :=
  match (fieldKK w).toNat with
  | 0x07 => .ok (.ldVxDT (fieldX w))
  | 0x0A => .ok (.ldVxK (fieldX w))
  | 0x15 => .ok (.ldDTVx (fieldX w))
  | 0x18 => .ok (.ldSTVx (fieldX w))
  | 0x1E => .ok (.addIVx (fieldX w))
  | 0x29 => .ok (.ldFVx (fieldX w))
  | 0x33 => .ok (.ldBVx (fieldX w))
  | 0x55 => .ok (.ldMemVx (fieldX w))
  | 0x65 => .ok (.ldVxMem (fieldX w))
  | _ => .error .familyFSubField

/-- R73: the family first, then the sub-field of families 0, 5, 8, 9, E and F. The last arm is family F, the only four-bit
value left. -/
def decodeWord (ops : UnlistedOps) (w : Word) : Except DecodeReject Instr :=
  match (fieldFamily w).val with
  | 0x0 => .ok (decodeFamily0 w)
  | 0x1 => .ok (.jp (fieldNNN w))
  | 0x2 => .ok (.call (fieldNNN w))
  | 0x3 => .ok (.seImm (fieldX w) (fieldKK w))
  | 0x4 => .ok (.sneImm (fieldX w) (fieldKK w))
  | 0x5 => if fieldN w = 0 then .ok (.seReg (fieldX w) (fieldY w)) else .error .family5SubField
  | 0x6 => .ok (.ldImm (fieldX w) (fieldKK w))
  | 0x7 => .ok (.addImm (fieldX w) (fieldKK w))
  | 0x8 => decodeFamily8 ops w
  | 0x9 => if fieldN w = 0 then .ok (.sneReg (fieldX w) (fieldY w)) else .error .family9SubField
  | 0xA => unlisted ops (.ldI (fieldNNN w))
  | 0xB => unlisted ops (.jpV0 (fieldNNN w))
  | 0xC => .ok (.rnd (fieldX w) (fieldKK w))
  | 0xD => .ok (.drw (fieldX w) (fieldY w) (fieldN w))
  | 0xE => decodeFamilyE w
  | _ => decodeFamilyF w

/-- Decoding a byte sequence: one instruction is the first two bytes, big-endian, and the rest is handed back (R50, R70, R83). -/
def decode (ops : UnlistedOps) : List Byte → Except DecodeReject (Instr × List Byte)
  | high :: low :: rest => (decodeWord ops (wordOfBytes high low)).map (fun i => (i, rest))
  | [_] => .error .truncated
  | [] => .error .truncated

/-- R80: the words the core executes as an unrecognized opcode, SYS among them (R74, R101). -/
def unrecognized (ops : UnlistedOps) (w : Word) : Bool :=
  match decodeWord ops w with
  | .error _ => true
  | .ok (.sys _) => true
  | .ok _ => false

/-! The encoder, from the patterns of R73. -/

/-- The four bits of an index or a count field. -/
def nibble (k : Fin 16) : BitVec 4 := BitVec.ofFin k

/-- The address view of R71: family, nnn. -/
def encodeNNN (family : BitVec 4) (nnn : Addr12) : Word := family ++ nnn

/-- The byte view of R71: family, x, kk. -/
def encodeXKK (family : BitVec 4) (x : Index) (kk : Byte) : Word := family ++ nibble x ++ kk

/-- The family view of R71: family, x, y, n. -/
def encodeXYN (family : BitVec 4) (x y n : Fin 16) : Word := family ++ nibble x ++ nibble y ++ nibble n

/-- The word of a well-formed instruction (R73). -/
def encode : Instr → Word
  | .sys nnn => encodeNNN 0x0 nnn
  | .cls => 0x00E0
  | .ret => 0x00EE
  | .jp nnn => encodeNNN 0x1 nnn
  | .call nnn => encodeNNN 0x2 nnn
  | .seImm x kk => encodeXKK 0x3 x kk
  | .sneImm x kk => encodeXKK 0x4 x kk
  | .seReg x y => encodeXYN 0x5 x y 0x0
  | .ldImm x kk => encodeXKK 0x6 x kk
  | .addImm x kk => encodeXKK 0x7 x kk
  | .ldReg x y => encodeXYN 0x8 x y 0x0
  | .orReg x y => encodeXYN 0x8 x y 0x1
  | .andReg x y => encodeXYN 0x8 x y 0x2
  | .xorReg x y => encodeXYN 0x8 x y 0x3
  | .addReg x y => encodeXYN 0x8 x y 0x4
  | .subReg x y => encodeXYN 0x8 x y 0x5
  | .shr x y => encodeXYN 0x8 x y 0x6
  | .subn x y => encodeXYN 0x8 x y 0x7
  | .shl x y => encodeXYN 0x8 x y 0xE
  | .sneReg x y => encodeXYN 0x9 x y 0x0
  | .ldI nnn => encodeNNN 0xA nnn
  | .jpV0 nnn => encodeNNN 0xB nnn
  | .rnd x kk => encodeXKK 0xC x kk
  | .drw x y n => encodeXYN 0xD x y n
  | .skp x => encodeXKK 0xE x 0x9E
  | .sknp x => encodeXKK 0xE x 0xA1
  | .ldVxDT x => encodeXKK 0xF x 0x07
  | .ldVxK x => encodeXKK 0xF x 0x0A
  | .ldDTVx x => encodeXKK 0xF x 0x15
  | .ldSTVx x => encodeXKK 0xF x 0x18
  | .addIVx x => encodeXKK 0xF x 0x1E
  | .ldFVx x => encodeXKK 0xF x 0x29
  | .ldBVx x => encodeXKK 0xF x 0x33
  | .ldMemVx x => encodeXKK 0xF x 0x55
  | .ldVxMem x => encodeXKK 0xF x 0x65

/-- The bytes of an instruction as they stand in memory, lower address first (R50). -/
def encodeBytes (i : Instr) : List Byte := [highByte (encode i), lowByte (encode i)]

/-- The word whose `nbits` bits are `w` as spec/opcode_table.json numbers them: bit 0 is the least significant bit of the one
16-bit instruction word, and every bit from `nbits` on is 0. -/
def tableWord (nbits w : Nat) : Word := BitVec.ofNat 16 (w % 2 ^ nbits)

/-- The instruction the decoder reads from a table word, laid out as the hardware stores it and read under the default
`UNLISTED_OPS = standard`, in which every row of the table exists (R73; notes/assumptions/3). -/
def decodeTableWord (nbits w : Nat) : Option Instr :=
  match decode .standard [highByte (tableWord nbits w), lowByte (tableWord nbits w)] with
  | .ok (i, _) => some i
  | .error _ => none

end Sys2Proof
end

