-- ==== Sys2Proof/Machine/Defaults.lean ====
section
/-! DEFINITION. The default configuration of spec/00_scope.md R9, with the font table of spec/10_state.md R32, and the number a
STACK_CAP setting stands for. -/

namespace Sys2Proof

/-- The number of return addresses a STACK_CAP setting allows (R9, R28). -/
def StackCap.limit : StackCap → Nat
  | .fifteen => 15
  | .sixteen => 16

/-- The 16 glyphs of R32, five bytes each, top row first (PRESUMED by the spec, 93 G1: notes/assumptions/12). -/
def defaultGlyphs : List (List Byte) := [
  [0xF0, 0x90, 0x90, 0x90, 0xF0],  -- 0
  [0x20, 0x60, 0x20, 0x20, 0x70],  -- 1
  [0xF0, 0x10, 0xF0, 0x80, 0xF0],  -- 2
  [0xF0, 0x10, 0xF0, 0x10, 0xF0],  -- 3
  [0x90, 0x90, 0xF0, 0x10, 0x10],  -- 4
  [0xF0, 0x80, 0xF0, 0x10, 0xF0],  -- 5
  [0xF0, 0x80, 0xF0, 0x90, 0xF0],  -- 6
  [0xF0, 0x10, 0x20, 0x40, 0x40],  -- 7
  [0xF0, 0x90, 0xF0, 0x90, 0xF0],  -- 8
  [0xF0, 0x90, 0xF0, 0x10, 0xF0],  -- 9
  [0xF0, 0x90, 0xF0, 0x90, 0x90],  -- A
  [0xE0, 0x90, 0xE0, 0x90, 0xE0],  -- B
  [0xF0, 0x80, 0x80, 0x80, 0xF0],  -- C
  [0xE0, 0x90, 0x90, 0x90, 0xE0],  -- D
  [0xF0, 0x80, 0xF0, 0x80, 0xF0],  -- E
  [0xF0, 0x80, 0xF0, 0x80, 0x80]]  -- F

/-- The default `FONT` of R9: the glyphs of R32 one after another. -/
def defaultFont : Font := Vector.ofFn (fun a => defaultGlyphs.flatten.getD a.val 0)

/-- The default configuration, the third column of R9's table. -/
def Cfg.default : Cfg where
  shiftFlagMode := .source
  stackCap := .sixteen
  font := defaultFont
  fontAddrMode := .times5
  unlistedOps := .standard
  subnUnderflow := .saturate

end Sys2Proof
end

