-- ==== Sys2Proof/Machine/Memory.lean ====
section
/-! DEFINITION. The 4096-byte memory as a canonical list of cells over its construction contents (spec/10_state.md R29-R31,
spec/20_memory.md R57-R62; the form: notes/assumptions/7). -/

namespace Sys2Proof.Machine

/-- The cells that differ from the construction contents, by rising address. -/
abbrev Memory := List Host.Cell

/-- What an unlisted address reads as: the construction contents, FONT at 0x000-0x04F and 0 elsewhere (R30, R250). -/
def Memory.background (font : Font) (a : Nat) : Byte := if h : a < 80 then font[a] else 0

/-- The byte listed at an address, if any. -/
def Memory.listed : Memory → Nat → Option Byte
  | [], _ => none
  | (b, v) :: m, a => if b = a then some v else Memory.listed m a

/-- The byte at an address. -/
def Memory.read (font : Font) (m : Memory) (a : Nat) : Byte := (Memory.listed m a).getD (Memory.background font a)

/-- List `v` at `a`, in rising order, in place of an entry for `a`. -/
def Memory.insertCell (a : Nat) (v : Byte) : Memory → Memory
  | [] => [(a, v)]
  | (b, w) :: m =>
    if b < a then (b, w) :: Memory.insertCell a v m
    else if b = a then (a, v) :: m
    else (a, v) :: (b, w) :: m

/-- Store a byte: its own cell changes and no other (R58, R62). Storing what the address reads as when unlisted leaves no entry. -/
def Memory.write (font : Font) (m : Memory) (a : Nat) (v : Byte) : Memory :=
  if v = Memory.background font a then m.filter (fun p => p.1 != a) else Memory.insertCell a v m

/-- The canonical form: addresses strictly rising, each in 0x000-0xFFF, and no entry equal to the construction contents. -/
def Memory.wf (font : Font) (m : Memory) : Bool :=
  decide (List.Pairwise (fun p q : Host.Cell => p.1 < q.1) m) &&
    m.all (fun p => decide (p.1 ≤ lastAddress) && p.2 != Memory.background font p.1)

end Sys2Proof.Machine
end

