-- ==== Sys2Proof/Machine/State.lean ====
section
/-! DEFINITION. The state of the core as plain data, its fatal conditions, and its state after construction
(spec/10_state.md R20-R40, spec/60_exceptions.md R221, spec/70_reset_and_hazards.md R250). -/

namespace Sys2Proof.Machine

/-- The fatal conditions a step can raise (R37, R221). A meaning that raises one answers the NEXT state of R224, in which
`State.fault` holds it (`State.takeFatal`), so no step of this model ends in `Host.Outcome.fault`: safe, every program the spec
lets go on goes on, and a faulted machine halts as R91 says (notes/assumptions/4). -/
inductive Fault where
  /-- raised by CALL (2nnn) when SP = STACK_CAP (R113); safe: the latched state is the spec's own -/
  | stackOverflow
  /-- raised by RET (00EE) when SP = 0 (R111); safe, as above -/
  | stackUnderflow
  /-- raised by the fetch when PC > 0xFFE (R94); safe, as above -/
  | pcOutOfRange
  /-- raised by Dxyn, Fx33, Fx55 and Fx65 when an accessed address exceeds 0xFFF (R55); safe, as above -/
  | addressOutOfRange
  /-- raised by Ex9E and ExA1 when Vx > 15 (R182); safe, as above -/
  | keyIndexOutOfRange
  deriving DecidableEq, Repr

/-- The reasons an instruction is given no meaning. None is raised: every row of the opcode table has its meaning. -/
inductive Refusal where
  /-- raised by `exec` for an instruction rejected by name (none is left); safe: the model stops where the core goes on -/
  | notModelled (mnemonic : String)
  deriving DecidableEq, Repr

/-- The display buffer: 32 rows of 64 one-bit columns, `disp[r][c]` (R33). -/
abbrev Display := Vector (Vector Bool 64) 32

/-- The machine state record of R20, with the configuration of R9 (notes/assumptions/2) and the count of random draws
(the model's own, notes/assumptions/1). SP is the length of `stack` (R27). -/
structure State where
  /-- the configuration record; no step or host operation changes it (R9, R38) -/
  cfg : Cfg
  /-- V0 to VF (R21) -/
  v : Vector Byte 16
  /-- I (R23) -/
  i : Word
  /-- PC (R24) -/
  pc : Word
  /-- the return addresses, the most recently pushed last (R27) -/
  stack : List Word
  /-- DT (R25) -/
  dt : Byte
  /-- ST (R26) -/
  st : Byte
  /-- the display buffer (R33) -/
  disp : Display
  /-- the display dirty flag (R34) -/
  dirty : Bool
  /-- the keypad, true = down, written by the host only (R35) -/
  keys : Vector Bool 16
  /-- the key-wait state (R36) -/
  wait : Option Index
  /-- the latched fatal condition (R37) -/
  fault : Option Fault
  /-- the memory array (R29) -/
  mem : Memory
  /-- how many random bytes Cxkk has drawn: the model's own counter (notes/assumptions/1, 8) -/
  draws : Nat
  deriving DecidableEq, Repr

/-- `new()` (R250, R253): FONT at 0x000-0x04F is what memory reads as where nothing is listed. -/
def State.new (cfg : Cfg) : State where
  cfg := cfg
  v := Vector.replicate 16 0
  i := 0
  pc := 0x200
  stack := []
  dt := 0
  st := 0
  disp := Vector.replicate 32 (Vector.replicate 64 false)
  dirty := false
  keys := Vector.replicate 16 false
  wait := none
  fault := none
  mem := []
  draws := 0

/-- The machine right after construction with the default configuration (R9, R39, R250). -/
def State.reset : State := State.new Cfg.default

end Sys2Proof.Machine
end

