-- ==== Sys2Proof/Machine/Ops.lean ====
section
/-! DEFINITION. The named operations over registers, memory, stack, timers and keypad, and the one operation that takes a fatal
condition (spec/00_scope.md R13-R16, spec/20_memory.md, spec/40_cycle.md R93, R96, spec/60_exceptions.md R224). -/

namespace Sys2Proof.Machine

/-! Registers -/

/-- `V[x]` (R13). -/
def State.reg (s : State) (x : Index) : Byte := s.v[x]

/-- `V[x] <- b` (R13, R21): no register is hardwired. -/
def State.setReg (s : State) (x : Index) (b : Byte) : State := { s with v := s.v.set x.val b x.isLt }

/-- Write the flag register, the last register write of a flag-setting instruction (R16, R22). -/
def State.setVF (s : State) (b : Byte) : State := s.setReg vfIndex b

/-- SP, the number of return addresses on the stack (R27, R28). -/
def State.sp (s : State) : Nat := s.stack.length

/-- STACK_CAP as a number (R28). -/
def State.stackLimit (s : State) : Nat := s.cfg.stackCap.limit

/-- The registers V0 to Vx in ascending order (R203). -/
def State.regsUpTo (s : State) (x : Index) : List Byte := s.v.toList.take (x.val + 1)

/-- Load bytes into the registers from index `k` upward, ascending (R204). -/
def loadRegs (v : Vector Byte 16) (k : Nat) : List Byte → Vector Byte 16
  | [] => v
  | b :: bs => loadRegs (v.setIfInBounds k b) (k + 1) bs

/-! Memory -/

/-- The byte memory holds at an address. -/
def State.byteAt (s : State) (a : Nat) : Byte := Memory.read s.cfg.font s.mem a

/-- Store a byte without a range check. -/
def State.setByte (s : State) (a : Nat) (b : Byte) : State := { s with mem := Memory.write s.cfg.font s.mem a b }

/-- `MemRead(a, 1)` (R14, R55). -/
def State.memRead (s : State) (a : Nat) : Except Fault Byte :=
  if a ≤ lastAddress then .ok (s.byteAt a) else .error .addressOutOfRange

/-- `MemWrite(a, 1, b)` (R14, R55). -/
def State.memWrite (s : State) (a : Nat) (b : Byte) : Except Fault State :=
  if a ≤ lastAddress then .ok (s.setByte a b) else .error .addressOutOfRange

/-- `count` bytes from `a` upward, one checked read each (R51, R55, R56). -/
def State.readBytes (s : State) (a : Nat) : Nat → Except Fault (List Byte)
  | 0 => .ok []
  | count + 1 =>
    match s.memRead a with
    | .error k => .error k
    | .ok b => (s.readBytes (a + 1) count).map (fun bs => b :: bs)

/-- Bytes stored from `a` upward in ascending order, one checked write each (R51, R55, R56). -/
def State.writeBytes (s : State) (a : Nat) : List Byte → Except Fault State
  | [] => .ok s
  | b :: bs =>
    match s.memWrite a b with
    | .error k => .error k
    | .ok t => t.writeBytes (a + 1) bs

/-- A run of bytes stored from `a` upward without a range check: the bulk write of `load` (R252). -/
def State.setBytes (s : State) (a : Nat) : List Byte → State
  | [] => s
  | b :: bs => (s.setByte a b).setBytes (a + 1) bs

/-! Program counter -/

/-- The big-endian word at PC and PC + 1 (R50, R93). -/
def State.fetchWord (s : State) : Word := wordOfBytes (s.byteAt s.pc.toNat) (s.byteAt (s.pc.toNat + 1))

/-- The default advance of PC, modulo 2^16 (R93). -/
def State.advance (s : State) : State := { s with pc := s.pc + 2 }

/-- A skip, `PC <- (PC + 2) mod 2^16` after the default advance (R110). -/
def State.skip (s : State) : State := { s with pc := s.pc + 2 }

/-- Skip the next instruction when the condition holds (R110, R121). -/
def State.skipIf (s : State) (c : Bool) : State := if c then s.skip else s

/-- `PC <- target` (R13). -/
def State.jump (s : State) (target : Word) : State := { s with pc := target }

/-! Fatal conditions -/

/-- Latch a fatal condition in a state whose PC has not been advanced (R224). -/
def State.latch (s : State) (k : Fault) : State := { s with fault := some k }

/-- TAKING A FATAL CONDITION (R224): an instruction runs with PC already advanced by 2 (R16), so the state before the step is
this one with the advance withdrawn, and the new state is that with `fault` latched. Nothing else the instruction would have
written is kept. -/
def State.takeFatal (s : State) (k : Fault) : State := ({ s with pc := s.pc - 2 } : State).latch k

/-- The end of an instruction that may raise: its whole effect, or the fatal condition and none of it (R99, R224). -/
def State.commit (s : State) (r : Except Fault State) : Host.Outcome State Fault Refusal :=
  match r with
  | .ok t => .next t
  | .error k => .next (s.takeFatal k)

/-! Call stack -/

/-- Push a return address (R113). -/
def State.push (s : State) (a : Word) : Except Fault State :=
  if s.sp = s.stackLimit then .error .stackOverflow else .ok { s with stack := s.stack ++ [a] }

/-- The most recently pushed return address and the state without it (R111). -/
def State.pop (s : State) : Except Fault (Word × State) :=
  match s.stack.getLast? with
  | none => .error .stackUnderflow
  | some a => .ok (a, { s with stack := s.stack.dropLast })

/-! Timers and keypad -/

/-- One timer "toward zero if nonzero" (R96). -/
def countDown (t : Byte) : Byte := if t = 0 then 0 else t - 1

/-- `TimerTick()` (R96). -/
def State.tick (s : State) : State := { s with dt := countDown s.dt, st := countDown s.st }

/-- Whether the tick of this state takes ST from 1 to 0 (R97). -/
def State.toneStops (s : State) : Bool := s.st == 1

/-- The least key that is down, if any (R92, R184). -/
def leastDown (keys : Vector Bool 16) : Option Index := (List.finRange 16).find? (fun k => keys[k])

/-- `keys[k]` (R13). -/
def State.keyDown (s : State) (k : Index) : Bool := s.keys[k]

/-- A key index taken from a register must be in 0..15 (R182). -/
def keyIndex (b : Byte) : Except Fault Index :=
  if h : b.toNat < 16 then .ok ⟨b.toNat, h⟩ else .error .keyIndexOutOfRange

/-! Placing an instruction where the next fetch reads it -/

/-- The state whose next step fetches the word `w`: no latched fault and no key-wait (R91, R92), a PC a fetch may use (R94; the
entry point if it is out of range), and the two bytes of `w` at PC and PC + 1 (R50). -/
def State.placeWord (s : State) (w : Word) : State :=
  let pc : Word := if s.pc.toNat ≤ lastFetchAddress then s.pc else 0x200
  ({ s with fault := none, wait := none, pc := pc } : State).setBytes pc.toNat [highByte w, lowByte w]

end Sys2Proof.Machine
end

