-- ==== Sys2Proof/Machine/Operands.lean ====
section
/-! DEFINITION. The operand forms and result policies of spec/42_alu.md R143, the address forms of spec/45_index_memory.md R205 and
the font addresses of spec/43_display.md R165. -/

namespace Sys2Proof.Machine

/-- `zext_16(nnn)` (R72). -/
def addrWord (nnn : Addr12) : Word := nnn.setWidth 16

/-- `zext_16` of a register value (R12). -/
def byteWord (b : Byte) : Word := b.setWidth 16

/-- The address I + k, an exact sum (R56). -/
def State.indexed (s : State) (k : Nat) : Nat := s.i.toNat + k

/-- I advanced by `k`, modulo 2^16 (R201, R203, R204). -/
def State.addI (s : State) (k : Word) : State := { s with i := s.i + k }

/-- `I <- a` (R13). -/
def State.setI (s : State) (a : Word) : State := { s with i := a }

/-- Addition saturating at 255 (R132). -/
def addSaturate (a b : Byte) : Byte := BitVec.ofNat 8 (min (a.toNat + b.toNat) 255)

/-- Addition modulo 256 (R137). -/
def addWrap (a b : Byte) : Byte := BitVec.ofNat 8 (a.toNat + b.toNat)

/-- Subtraction saturating at 0 (R138). -/
def subSaturate (a b : Byte) : Byte := BitVec.ofNat 8 (a.toNat - b.toNat)

/-- The result of 8xy7, `b - a` under `SUBN_UNDERFLOW` (R140). -/
def subReverse (mode : SubnUnderflow) (a b : Byte) : Byte :=
  match mode with
  | .saturate => subSaturate b a
  | .wrap => b - a

/-- Halving, `v >> 1` (R139). -/
def halve (b : Byte) : Byte := BitVec.ofNat 8 (b.toNat / 2)

/-- Doubling modulo 256 (R141). -/
def double (b : Byte) : Byte := BitVec.ofNat 8 (2 * b.toNat)

/-- The three decimal digits, hundreds first (R202). -/
def decimalDigits (b : Byte) : List Byte :=
  [BitVec.ofNat 8 (b.toNat / 100), BitVec.ofNat 8 (b.toNat / 10 % 10), BitVec.ofNat 8 (b.toNat % 10)]

/-- The address Fx29 computes (R165). -/
def fontAddress (mode : FontAddrMode) (b : Byte) : Word :=
  match mode with
  | .times5 => BitVec.ofNat 16 (b.toNat * 5)
  | .lowNibble => BitVec.ofNat 16 (b.toNat % 16 * 5)

end Sys2Proof.Machine
end

