-- ==== Sys2Proof/Machine/Flags.lean ====
section
/-! DEFINITION. The values written into VF by the flag-setting instructions (spec/10_state.md R22, spec/42_alu.md R137-R141). -/

namespace Sys2Proof.Machine

/-- A flag as the byte VF receives (R22). -/
def flagByte (f : Bool) : Byte := if f then 1 else 0

/-- The carry of 8xy4: the exact sum exceeds 255 (R137). -/
def carryFlag (a b : Byte) : Byte := flagByte (decide (255 < a.toNat + b.toNat))

/-- The not-borrow flag of `a - b`, strictly greater (R138, R140). -/
def notBorrowFlag (a b : Byte) : Byte := flagByte (decide (b.toNat < a.toNat))

/-- The flag of 8xy6 under `SHIFT_FLAG_MODE` (R139). -/
def shiftRightFlag (mode : ShiftFlagMode) (b : Byte) : Byte :=
  match mode with
  | .source => flagByte (b &&& 0x0F == 1)
  | .canonical => b &&& 0x01

/-- The flag of 8xyE under `SHIFT_FLAG_MODE` (R141). -/
def shiftLeftFlag (mode : ShiftFlagMode) (b : Byte) : Byte :=
  match mode with
  | .source => flagByte (b &&& 0xF0 == 1)
  | .canonical => (b >>> 7) &&& 1

/-- A result into Vx, then a flag into VF: when x = F the flag is what remains (R16, R22, R130). -/
def State.setResultAndFlag (s : State) (x : Index) (result flag : Byte) : State := (s.setReg x result).setVF flag

end Sys2Proof.Machine
end

