-- ==== Sys2Proof/Machine/Alu.lean ====
section
/-! DEFINITION. The meanings of register arithmetic and logic and of RND (spec/42_alu.md R130-R142). Sources are read before any
write, and VF is written last (R130). -/

namespace Sys2Proof.Machine

/-- LD Vx, kk (R131). -/
def execLdImm (x : Index) (kk : Byte) (s : State) : Host.Outcome State Fault Refusal := .next (s.setReg x kk)

/-- ADD Vx, kk (R132): saturates, no flag. -/
def execAddImm (x : Index) (kk : Byte) (s : State) : Host.Outcome State Fault Refusal :=
  .next (s.setReg x (addSaturate (s.reg x) kk))

/-- LD Vx, Vy (R133). -/
def execLdReg (x y : Index) (s : State) : Host.Outcome State Fault Refusal := .next (s.setReg x (s.reg y))

/-- OR Vx, Vy (R134): VF is not reset. -/
def execOrReg (x y : Index) (s : State) : Host.Outcome State Fault Refusal := .next (s.setReg x (s.reg x ||| s.reg y))

/-- AND Vx, Vy (R135). -/
def execAndReg (x y : Index) (s : State) : Host.Outcome State Fault Refusal := .next (s.setReg x (s.reg x &&& s.reg y))

/-- XOR Vx, Vy (R136). -/
def execXorReg (x y : Index) (s : State) : Host.Outcome State Fault Refusal := .next (s.setReg x (s.reg x ^^^ s.reg y))

/-- ADD Vx, Vy (R137): wraps, VF = carry. -/
def execAddReg (x y : Index) (s : State) : Host.Outcome State Fault Refusal :=
  .next (s.setResultAndFlag x (addWrap (s.reg x) (s.reg y)) (carryFlag (s.reg x) (s.reg y)))

/-- SUB Vx, Vy (R138): saturates at 0, VF = (Vx > Vy). -/
def execSubReg (x y : Index) (s : State) : Host.Outcome State Fault Refusal :=
  .next (s.setResultAndFlag x (subSaturate (s.reg x) (s.reg y)) (notBorrowFlag (s.reg x) (s.reg y)))

/-- SHR Vx (R139): y is ignored. -/
def execShr (x _y : Index) (s : State) : Host.Outcome State Fault Refusal :=
  .next (s.setResultAndFlag x (halve (s.reg x)) (shiftRightFlag s.cfg.shiftFlagMode (s.reg x)))

/-- SUBN Vx, Vy (R140): Vy - Vx, VF = (Vy > Vx). -/
def execSubn (x y : Index) (s : State) : Host.Outcome State Fault Refusal :=
  .next (s.setResultAndFlag x (subReverse s.cfg.subnUnderflow (s.reg x) (s.reg y)) (notBorrowFlag (s.reg y) (s.reg x)))

/-- SHL Vx, Vy (R141): twice Vy into Vx. -/
def execShl (x y : Index) (s : State) : Host.Outcome State Fault Refusal :=
  .next (s.setResultAndFlag x (double (s.reg y)) (shiftLeftFlag s.cfg.shiftFlagMode (s.reg y)))

/-- The effect of RND for a given random byte, `V[x] <- rnd & kk` (R142). -/
def State.randomInto (s : State) (x : Index) (kk rnd : Byte) : State := s.setReg x (rnd &&& kk)

/-- RND Vx, kk (R142): the random byte is the free value of this draw (R10; notes/assumptions/1), and the next draw is another. -/
def execRnd (x : Index) (kk : Byte) (s : State) : Host.Outcome State Fault Refusal :=
  .next ({ s with draws := s.draws + 1 }.randomInto x kk (Config.freeByte s.draws))

end Sys2Proof.Machine
end

