-- ==== Sys2Proof/Machine/Control.lean ====
section
/-! DEFINITION. The meanings of SYS (spec/40_cycle.md R101) and of control transfer: return, jumps, call and skips
(spec/41_control_flow.md). Each runs with PC already advanced by 2 (R16, R93). -/

namespace Sys2Proof.Machine

/-- SYS nnn (R101): executed as an unrecognized opcode, so nothing beyond the step's advance, tick and diagnostic. -/
def execSys (_nnn : Addr12) (s : State) : Host.Outcome State Fault Refusal := .next s

/-- RET (R111). -/
def execRet (s : State) : Host.Outcome State Fault Refusal := s.commit (s.pop.map (fun p => p.2.jump p.1))

/-- JP nnn (R112). -/
def execJp (nnn : Addr12) (s : State) : Host.Outcome State Fault Refusal := .next (s.jump (addrWord nnn))

/-- CALL nnn (R113): the pushed value is the advanced PC. -/
def execCall (nnn : Addr12) (s : State) : Host.Outcome State Fault Refusal :=
  s.commit ((s.push s.pc).map (fun t => t.jump (addrWord nnn)))

/-- JP V0, nnn (R114): always V0; the sum is at most 0x10FE. -/
def execJpV0 (nnn : Addr12) (s : State) : Host.Outcome State Fault Refusal :=
  .next (s.jump (addrWord nnn + byteWord (s.reg 0)))

/-- SE Vx, kk (R115). -/
def execSeImm (x : Index) (kk : Byte) (s : State) : Host.Outcome State Fault Refusal := .next (s.skipIf (s.reg x == kk))

/-- SNE Vx, kk (R116). -/
def execSneImm (x : Index) (kk : Byte) (s : State) : Host.Outcome State Fault Refusal := .next (s.skipIf (s.reg x != kk))

/-- SE Vx, Vy (R117). -/
def execSeReg (x y : Index) (s : State) : Host.Outcome State Fault Refusal := .next (s.skipIf (s.reg x == s.reg y))

/-- SNE Vx, Vy (R118). -/
def execSneReg (x y : Index) (s : State) : Host.Outcome State Fault Refusal := .next (s.skipIf (s.reg x != s.reg y))

end Sys2Proof.Machine
end

