-- ==== Sys2Proof/Machine/Display.lean ====
section
/-! DEFINITION. The display operations and the meanings of CLS, DRW and LD F, Vx (spec/43_display.md R160-R165). -/

namespace Sys2Proof.Machine

/-- The cleared buffer (R161). -/
def blankDisplay : Display := Vector.replicate 32 (Vector.replicate 64 false)

/-- `disp[r][c]`, with r and c reduced into the buffer, as every access of the core does (R162). -/
def pixel (d : Display) (r c : Nat) : Bool :=
  (d[r % 32]'(Nat.mod_lt _ (by decide)))[c % 64]'(Nat.mod_lt _ (by decide))

/-- Toggle one cell, `disp[r][c] <- disp[r][c] ^ 1` (R162). -/
def togglePixel (d : Display) (r c : Nat) : Display :=
  d.set (r % 32) ((d[r % 32]'(Nat.mod_lt _ (by decide))).set (c % 64) (!pixel d r c) (Nat.mod_lt _ (by decide)))
    (Nat.mod_lt _ (by decide))

/-- The sprite pixel at column offset k: bit 7 - k of the row's byte (R160). -/
def spriteBit (b : Byte) (k : Nat) : Bool := b.getLsbD (7 - k)

/-- A display being drawn on, and whether some pixel went from 1 to 0 so far (R162). -/
abbrev Canvas := Display × Bool

/-- One pixel of a sprite: a set bit toggles its cell, and a cell that was 1 is a collision (R162). -/
def drawPixel (b : Byte) (row col k : Nat) (cv : Canvas) : Canvas :=
  if spriteBit b k then (togglePixel cv.1 row (col + k), cv.2 || pixel cv.1 row (col + k)) else cv

/-- One row of a sprite, pixels 0 to 7 (R162). -/
def drawRow (b : Byte) (row col : Nat) (cv : Canvas) : Canvas :=
  (List.range 8).foldl (fun cv k => drawPixel b row col k cv) cv

/-- A sprite, one byte per row, downward from `row` (R162). -/
def drawSprite (row col : Nat) : List Byte → Canvas → Canvas
  | [], cv => cv
  | b :: bs, cv => drawSprite (row + 1) col bs (drawRow b row col cv)

/-- The effect of DRW once its sprite bytes are read: the display, the dirty flag and VF (R162). -/
def State.drawn (s : State) (x y : Index) (bytes : List Byte) : State :=
  let cv := drawSprite (s.reg y).toNat (s.reg x).toNat bytes (s.disp, false)
  ({ s with disp := cv.1, dirty := true } : State).setVF (flagByte cv.2)

/-- CLS (R161). -/
def execCls (s : State) : Host.Outcome State Fault Refusal := .next { s with disp := blankDisplay, dirty := true }

/-- DRW Vx, Vy, n (R162): the sprite bytes are I, I + 1, ..., I + n - 1 (R163). -/
def execDrw (x y : Index) (n : Fin 16) (s : State) : Host.Outcome State Fault Refusal :=
  s.commit ((s.readBytes (s.indexed 0) n.val).map (fun bytes => s.drawn x y bytes))

/-- LD F, Vx (R165). -/
def execLdFVx (x : Index) (s : State) : Host.Outcome State Fault Refusal :=
  .next (s.setI (fontAddress s.cfg.fontAddrMode (s.reg x)))

end Sys2Proof.Machine
end

