-- ==== Sys2Proof/Machine/IndexMemory.lean ====
section
/-! DEFINITION. The meanings of the index-register and memory instructions (spec/45_index_memory.md R200-R204). -/

namespace Sys2Proof.Machine

/-- LD I, nnn (R200). -/
def execLdI (nnn : Addr12) (s : State) : Host.Outcome State Fault Refusal := .next (s.setI (addrWord nnn))

/-- ADD I, Vx (R201): modulo 2^16, no flag. -/
def execAddIVx (x : Index) (s : State) : Host.Outcome State Fault Refusal := .next (s.addI (byteWord (s.reg x)))

/-- LD B, Vx (R202): hundreds at I, tens at I + 1, ones at I + 2. -/
def execLdBVx (x : Index) (s : State) : Host.Outcome State Fault Refusal :=
  s.commit (s.writeBytes (s.indexed 0) (decimalDigits (s.reg x)))

/-- LD [I], Vx (R203): V0 to Vx at I + 0 to I + x, then I advances by x + 1. -/
def execLdMemVx (x : Index) (s : State) : Host.Outcome State Fault Refusal :=
  s.commit ((s.writeBytes (s.indexed 0) (s.regsUpTo x)).map (fun t => t.addI (BitVec.ofNat 16 (x.val + 1))))

/-- LD Vx, [I] (R204): V0 to Vx from I + 0 to I + x, then I advances by x + 1. -/
def execLdVxMem (x : Index) (s : State) : Host.Outcome State Fault Refusal :=
  s.commit ((s.readBytes (s.indexed 0) (x.val + 1)).map
    (fun bytes => ({ s with v := loadRegs s.v 0 bytes } : State).addI (BitVec.ofNat 16 (x.val + 1))))

end Sys2Proof.Machine
end

