-- ==== Sys2Proof/Machine/KeysTimers.lean ====
section
/-! DEFINITION. The meanings of the keypad and timer instructions (spec/44_timers_keys.md R180-R187). -/

namespace Sys2Proof.Machine

/-- SKP Vx (R180). -/
def execSkp (x : Index) (s : State) : Host.Outcome State Fault Refusal :=
  s.commit ((keyIndex (s.reg x)).map (fun k => s.skipIf (s.keyDown k)))

/-- SKNP Vx (R181). -/
def execSknp (x : Index) (s : State) : Host.Outcome State Fault Refusal :=
  s.commit ((keyIndex (s.reg x)).map (fun k => s.skipIf (!s.keyDown k)))

/-- LD Vx, DT (R183): DT as it is before this step's tick. -/
def execLdVxDT (x : Index) (s : State) : Host.Outcome State Fault Refusal := .next (s.setReg x s.dt)

/-- LD Vx, K (R184): a key already down completes it at once, else the core enters the key-wait. -/
def execLdVxK (x : Index) (s : State) : Host.Outcome State Fault Refusal :=
  match leastDown s.keys with
  | some k => .next (s.setReg x (BitVec.ofNat 8 k.val))
  | none => .next { s with wait := some x }

/-- LD DT, Vx (R186). -/
def execLdDTVx (x : Index) (s : State) : Host.Outcome State Fault Refusal := .next { s with dt := s.reg x }

/-- LD ST, Vx (R187). -/
def execLdSTVx (x : Index) (s : State) : Host.Outcome State Fault Refusal := .next { s with st := s.reg x }

end Sys2Proof.Machine
end

