-- ==== Sys2Proof/Machine/Cycle.lean ====
section
/-! DEFINITION. The cycle driver: halt, key-wait, fetch, advance, dispatch, timer tick, and the output record of a step
(spec/40_cycle.md R90-R102). -/

namespace Sys2Proof.Machine

/-- What a step did (R98). -/
inductive Event where
  | executed (w : Word)
  | blocked
  | resumed (k : Index)
  | halted (k : Fault)
  | fatal (k : Fault)
  deriving DecidableEq, Repr

/-- The one diagnostic: an unrecognized word (R98, R227). -/
inductive Diagnostic where
  | invalidOpcode (w : Word)
  deriving DecidableEq, Repr

/-- The output record of a step (R98). It is not state and no later step reads it (R38). -/
structure Out where
  event : Event
  diag : Option Diagnostic
  toneStop : Bool
  deriving DecidableEq, Repr

/-- What one call of `step()` gives the host: the new state and the output (R90). -/
structure Cycled where
  state : State
  out : Out
  deriving DecidableEq, Repr

/-- An event with no diagnostic and no tone cue. -/
def quiet (e : Event) : Out := ⟨e, none, false⟩

/-- The diagnostic of a fetched word: InvalidOpcode(w) for an unrecognized word, SYS among them (R80, R100, R101). -/
def diagnosticOf (ops : UnlistedOps) (w : Word) : Option Diagnostic :=
  if unrecognized ops w then some (.invalidOpcode w) else none

/-- A step in the key-wait (R92): the least key that is down resumes it, with the tick; with none down nothing changes. -/
def cycleWaiting (x : Index) (s : State) : Cycled :=
  match leastDown s.keys with
  | none => ⟨s, quiet .blocked⟩
  | some k =>
    let t : State := { s.setReg x (BitVec.ofNat 8 k.val) with wait := none }
    ⟨t.tick, ⟨.resumed k, none, t.toneStops⟩⟩

/-- `Execute(w)` (R95): the instruction the word decodes to, or, for an unrecognized word, nothing (R100). -/
def executeWord (w : Word) (s : State) : Host.Outcome State Fault Refusal :=
  match decodeWord s.cfg.unlistedOps w with
  | .ok i => exec i s
  | .error _ => .next s

/-- The end of a step that fetched `w` and reached `t`: the tick, unless the instruction raised a fatal condition (R96, R224). -/
def cycleEnd (w : Word) (t : State) : Cycled :=
  match t.fault with
  | some k => ⟨t, quiet (.fatal k)⟩
  | none => ⟨t.tick, ⟨.executed w, diagnosticOf t.cfg.unlistedOps w, t.toneStops⟩⟩

/-- Fetch, advance, dispatch, tick (R93-R96). -/
def cycleRunning (s : State) : Host.Outcome Cycled Fault Refusal :=
  if lastFetchAddress < s.pc.toNat then .next ⟨s.latch .pcOutOfRange, quiet (.fatal .pcOutOfRange)⟩
  else
    match executeWord s.fetchWord s.advance with
    | .next t => .next (cycleEnd s.fetchWord t)
    | .fault k => .fault k
    | .refused r => .refused r

/-- `Step(s, Cfg, rnd)` of R90: a latched fault first, then the key-wait, then the fetch. -/
def cycle (s : State) : Host.Outcome Cycled Fault Refusal :=
  match s.fault with
  | some k => .next ⟨s, quiet (.halted k)⟩
  | none =>
    match s.wait with
    | some x => .next (cycleWaiting x s)
    | none => cycleRunning s

/-- The state a cycle leaves, its output put aside. -/
def stateOf (o : Host.Outcome Cycled Fault Refusal) : Host.Outcome State Fault Refusal :=
  match o with
  | .next c => .next c.state
  | .fault k => .fault k
  | .refused r => .refused r

end Sys2Proof.Machine
end

