-- ==== Sys2Proof/Machine/Step.lean ====
section
/-! DEFINITION. One step of the machine (spec/40_cycle.md R90) and the placing of an instruction where it is fetched. -/

namespace Sys2Proof.Machine

/-- One call of `step()`, its state alone; `cycle` gives the output record of the same call (R90, R98). -/
def step (s : State) : Host.Outcome State Fault Refusal := stateOf (cycle s)

/-- `s` with one table word stored where the next step fetches it. It stands for the host's `load` (notes/assumptions/6). -/
def State.withFetchWord (s : State) (nbits w : Nat) : State := s.placeWord (tableWord nbits w)

end Sys2Proof.Machine
end

