-- ==== Sys2Proof/Machine/HostOps.lean ====
section
/-! DEFINITION. The host's operations, each one atomic transaction between steps (spec/60_exceptions.md R233, R235,
spec/70_reset_and_hazards.md R251, R252, spec/43_display.md R166, R167). -/

namespace Sys2Proof.Machine

/-- `reset()` (R251): every assignment of R250 but the two memory lines. The configuration is no state of the core's, and the
random source is the host's, so both stay (notes/assumptions/2, 8). -/
def State.hostReset (s : State) : State := { State.new s.cfg with mem := s.mem, draws := s.draws }

/-- The failure of `load` (R221, R252): the call's own, never latched in `fault`. -/
inductive LoadFailure where
  | loadTooLarge
  deriving DecidableEq, Repr

/-- `load(bytes)` (R252). -/
def State.load (s : State) (bytes : List Byte) : Except LoadFailure State :=
  if maxProgramLength < bytes.length then .error .loadTooLarge else .ok (s.setBytes programStart bytes)

/-- `set_key(k, down)` (R236): an index above 15 cannot be written. -/
def State.setKey (s : State) (k : Index) (down : Bool) : State := { s with keys := s.keys.set k.val down k.isLt }

/-- `get_display()` (R167): the whole buffer, no state changed. -/
def State.getDisplay (s : State) : Display := s.disp

/-- `should_draw()` (R166): the dirty flag, read and cleared. -/
def State.shouldDraw (s : State) : Bool × State := (s.dirty, { s with dirty := false })

/-- The host's operations on a machine that exists (R233); `new()` is `State.new`. -/
inductive HostOp where
  | reset
  | load (bytes : List Byte)
  | setKey (k : Index) (down : Bool)
  | getDisplay
  | shouldDraw
  | step
  deriving DecidableEq, Repr

/-- What an operation returns (R233). -/
inductive Response where
  | done
  | failed (f : LoadFailure)
  | display (d : Display)
  | drawNeeded (b : Bool)
  | stepped (o : Out)
  deriving DecidableEq, Repr

/-- One transaction: the state it leaves and what it returns (R7, R61, R233). A failed `load` leaves the state as it was. -/
def transact (op : HostOp) (s : State) : Host.Outcome (State × Response) Fault Refusal :=
  match op with
  | .reset => .next (s.hostReset, .done)
  | .load bytes =>
    match s.load bytes with
    | .ok t => .next (t, .done)
    | .error f => .next (s, .failed f)
  | .setKey k down => .next (s.setKey k down, .done)
  | .getDisplay => .next (s, .display s.getDisplay)
  | .shouldDraw => .next (s.shouldDraw.2, .drawNeeded s.shouldDraw.1)
  | .step =>
    match cycle s with
    | .next c => .next (c.state, .stepped c.out)
    | .fault k => .fault k
    | .refused r => .refused r

end Sys2Proof.Machine
end

