-- ==== Sys2Proof/Safety.lean ====
section
/-! DEFINITION. What counts as a safe run, and the words claims are stated in: the invariants of the state, which step fetches
which instruction, what causes each fatal condition, and what a frame keeps (spec/10_state.md, spec/60_exceptions.md R221). -/

namespace Sys2Proof.Machine

/-! Invariants -/

/-- Memory is in its canonical form (notes/assumptions/7) and the stack holds at most STACK_CAP addresses (R28). -/
structure State.Inv (s : State) : Prop where
  memoryWf : Memory.wf s.cfg.font s.mem = true
  stackFits : s.sp ≤ s.stackLimit

/-- The greatest values PC and a return address can reach (R94, R113, R114): 0xFFF + 0xFF, and 0xFFE + 2. -/
structure State.PcBounded (s : State) : Prop where
  pcAtMost : s.pc.toNat ≤ 0x10FE
  returnsAtMost : ∀ a ∈ s.stack, a.toNat ≤ 0x1000

/-! Runs -/

/-- A safe state that fetches: neither halted (R91) nor waiting for a key (R92). -/
def State.Running (s : State) : Prop := s.fault = none ∧ s.wait = none

/-- The next step fetches a word and it decodes to `i` (R93-R95). -/
def State.Fetches (s : State) (i : Instr) : Prop :=
  s.Running ∧ s.pc.toNat ≤ lastFetchAddress ∧ decodeWord s.cfg.unlistedOps s.fetchWord = .ok i

/-- The condition under which a running state's next step raises each fatal condition (the table of R221). -/
def FatalCause (k : Fault) (s : State) : Prop :=
  match k with
  | .stackOverflow => ∃ nnn, s.Fetches (.call nnn) ∧ s.sp = s.stackLimit
  | .stackUnderflow => s.Fetches .ret ∧ s.sp = 0
  | .pcOutOfRange => lastFetchAddress < s.pc.toNat
  | .addressOutOfRange =>
    (∃ x y n, s.Fetches (.drw x y n) ∧ 0 < n.val ∧ lastAddress < s.i.toNat + n.val - 1) ∨
    (∃ x, s.Fetches (.ldBVx x) ∧ lastAddress < s.i.toNat + 2) ∨
    (∃ x, (s.Fetches (.ldMemVx x) ∨ s.Fetches (.ldVxMem x)) ∧ lastAddress < s.i.toNat + x.val)
  | .keyIndexOutOfRange => ∃ x, (s.Fetches (.skp x) ∨ s.Fetches (.sknp x)) ∧ 15 < (s.reg x).toNat

/-! Frames -/

/-- The parts of the state a step may change. The configuration and the keypad are no step's to change (R35, R38). -/
inductive Part where
  | regs
  | index
  | pc
  | stack
  | delay
  | sound
  | display
  | wait
  | fault
  | memory
  | draws
  deriving DecidableEq, Repr

/-- `t` is `s` in every part but those named; memory is compared by reading each byte. -/
structure KeepsAllBut (changed : List Part) (s t : State) : Prop where
  cfg : t.cfg = s.cfg
  keys : t.keys = s.keys
  regs : .regs ∈ changed ∨ ∀ r, t.reg r = s.reg r
  index : .index ∈ changed ∨ t.i = s.i
  pc : .pc ∈ changed ∨ t.pc = s.pc
  stack : .stack ∈ changed ∨ t.stack = s.stack
  delay : .delay ∈ changed ∨ t.dt = s.dt
  sound : .sound ∈ changed ∨ t.st = s.st
  display : .display ∈ changed ∨ (t.disp = s.disp ∧ t.dirty = s.dirty)
  wait : .wait ∈ changed ∨ t.wait = s.wait
  fault : .fault ∈ changed ∨ t.fault = s.fault
  memory : .memory ∈ changed ∨ ∀ a, t.byteAt a = s.byteAt a
  draws : .draws ∈ changed ∨ t.draws = s.draws

/-- `t` is `s` with Vx = `result` and then VF = `flag`, VF last (R22, R130), and nothing else changed. -/
def WritesResultAndFlag (s t : State) (x : Index) (result flag : Byte) : Prop :=
  (∀ r, t.reg r = if r = vfIndex then flag else if r = x then result else s.reg r) ∧ KeepsAllBut [.regs] s t

/-- `t` is `s` with Vx = `result` and nothing else changed, VF too unless x = F (R22). -/
def WritesResult (s t : State) (x : Index) (result : Byte) : Prop :=
  (∀ r, t.reg r = if r = x then result else s.reg r) ∧ KeepsAllBut [.regs] s t

/-- An instruction answered the state of R224: PC withdrawn to the instruction and `k` latched, nothing else changed. -/
def Aborts (s t : State) (k : Fault) : Prop :=
  t.pc + 2 = s.pc ∧ t.fault = some k ∧ KeepsAllBut [.pc, .fault] s t

/-- A target above 0xFFE is no fault until it is fetched from: then the step latches PcOutOfRange (R94). -/
def NextFetchChecksPc (t : State) : Prop :=
  t.Running → lastFetchAddress < t.pc.toNat → step t = .next { t with fault := some .pcOutOfRange }

/-- The pixel (r, c) lies under a set bit of the sprite of DRW Vx, Vy, n drawn in `s` (R160, R162, R163). -/
def UnderSprite (s : State) (x y : Index) (n : Fin 16) (r c : Nat) : Prop :=
  ∃ j k : Nat, j < n.val ∧ k < 8 ∧ r = ((s.reg y).toNat + j) % 32 ∧ c = ((s.reg x).toNat + k) % 64 ∧
    (s.byteAt (s.i.toNat + j)).getLsbD (7 - k) = true

/-- The general registers an instruction may write: its destinations, and VF where it sets a flag (R22). -/
def destinations : Instr → List Index
  | .sys _ => []
  | .cls => []
  | .ret => []
  | .jp _ => []
  | .call _ => []
  | .seImm _ _ => []
  | .sneImm _ _ => []
  | .seReg _ _ => []
  | .ldImm x _ => [x]
  | .addImm x _ => [x]
  | .ldReg x _ => [x]
  | .orReg x _ => [x]
  | .andReg x _ => [x]
  | .xorReg x _ => [x]
  | .addReg x _ => [x, vfIndex]
  | .subReg x _ => [x, vfIndex]
  | .shr x _ => [x, vfIndex]
  | .subn x _ => [x, vfIndex]
  | .shl x _ => [x, vfIndex]
  | .sneReg _ _ => []
  | .ldI _ => []
  | .jpV0 _ => []
  | .rnd x _ => [x]
  | .drw _ _ _ => [vfIndex]
  | .skp _ => []
  | .sknp _ => []
  | .ldVxDT x => [x]
  | .ldVxK x => [x]
  | .ldDTVx _ => []
  | .ldSTVx _ => []
  | .addIVx _ => []
  | .ldFVx _ => []
  | .ldBVx _ => []
  | .ldMemVx _ => []
  | .ldVxMem x => (List.finRange 16).filter (fun r => decide (r ≤ x))

/-- The instructions that read the keypad (R35). -/
def readsKeypad (i : Instr) : Prop := ∃ x, i = .skp x ∨ i = .sknp x ∨ i = .ldVxK x

end Sys2Proof.Machine
end

