-- ==== Sys2Proof/Certificates/Slice0/Obligations.lean ====
section
/-! DEFINITION. The statements for the provers, in the order of OBLIGATIONS.json. Where a docstring names a decision D<n> of
spec/92_eei_decisions.md, the clause rests on the spec's own choice (notes/assumptions/11), not on its source. -/

open Sys2Proof Sys2Proof.Machine

/-! Encoding -/

/-- Words written out bit by bit from R73's patterns decode to the instructions they stand for, one or two per family. -/
def Obligations.SpecWordsDecodeToTheirInstructions : Prop :=
  decodeWord .standard 0b0000000100100011 = .ok (.sys 0x123) ∧
  decodeWord .standard 0b0000000011101110 = .ok .ret ∧
  decodeWord .standard 0b0010001100000000 = .ok (.call 0x300) ∧
  decodeWord .standard 0b0111000100001010 = .ok (.addImm 1 0x0A) ∧
  decodeWord .standard 0b1000000100101110 = .ok (.shl 1 2) ∧
  decodeWord .standard 0b1101001000110101 = .ok (.drw 2 3 5) ∧
  decodeWord .standard 0b1110010110011110 = .ok (.skp 5) ∧
  decodeWord .standard 0b1111001001010101 = .ok (.ldMemVx 2) ∧
  decodeWord .standard 0b0101000100100001 = .error .family5SubField

/-- Decoding the word of a well-formed instruction gives it back, with every operand at every value, under both settings of
UNLISTED_OPS (R73-R79; D5, D7, D8). -/
def Obligations.DecodeOfEncodedInstructionIsIt : Prop :=
  ∀ (ops : UnlistedOps) (i : Instr), i.wellFormed ops = true → decodeWord ops (encode i) = .ok i

/-- A word that decodes is the word of what it decodes to, so no two rows match one word and no bit is dropped (R82). -/
def Obligations.EncodeOfDecodedWordIsIt : Prop :=
  ∀ (ops : UnlistedOps) (w : Word) (i : Instr), decodeWord ops w = .ok i → i.wellFormed ops = true ∧ encode i = w

/-- The unrecognized words are exactly those R80 lists, for each setting of UNLISTED_OPS (D5, D7, D8). -/
def Obligations.UnrecognizedWordsAreExactlyThoseListed : Prop :=
  ∀ (ops : UnlistedOps) (w : Word), unrecognized ops w = true ↔
    ((w >>> 12 = 0x0 ∧ w ≠ 0x00E0 ∧ w ≠ 0x00EE) ∨
     (w >>> 12 = 0x5 ∧ w &&& 0xF ≠ 0) ∨
     (w >>> 12 = 0x8 ∧ w &&& 0xF ∈ ([0x8, 0x9, 0xA, 0xB, 0xC, 0xD, 0xF] : List Word)) ∨
     (w >>> 12 = 0x9 ∧ w &&& 0xF ≠ 0) ∨
     (w >>> 12 = 0xE ∧ w &&& 0xFF ∉ ([0x9E, 0xA1] : List Word)) ∨
     (w >>> 12 = 0xF ∧ w &&& 0xFF ∉ ([0x07, 0x0A, 0x15, 0x18, 0x1E, 0x29, 0x33, 0x55, 0x65] : List Word)) ∨
     (ops = .invalid ∧ ((w >>> 12 = 0x8 ∧ w &&& 0xF = 0x7) ∨ w >>> 12 = 0xA ∨ w >>> 12 = 0xB)))

/-! The step -/

/-- When the two bytes at PC, high byte first, decode to `i`, the step is `exec i` at the state with PC advanced by 2, followed
by the tick unless `i` raised a fatal condition; the output is Executed(w) with the diagnostic of w, or Fatal(k). -/
def Obligations.StepRunsTheDecodedInstruction : Prop :=
  ∀ (s t : State) (i : Instr) (w : Word), s.fault = none → s.wait = none → s.pc.toNat ≤ 0xFFE →
    w = s.byteAt s.pc.toNat ++ s.byteAt (s.pc.toNat + 1) → decodeWord s.cfg.unlistedOps w = .ok i →
    exec i { s with pc := s.pc + 2 } = .next t →
    (t.fault = none → step s = .next t.tick ∧
      cycle s = .next ⟨t.tick, ⟨.executed w, diagnosticOf t.cfg.unlistedOps w, t.st == 1⟩⟩) ∧
    (∀ k, t.fault = some k → step s = .next t ∧ cycle s = .next ⟨t, ⟨.fatal k, none, false⟩⟩)

/-- No state and no instruction makes a step end in a fault or a refusal: every step answers a next state (R90, R99, R224). -/
def Obligations.EveryStepAnswersANextState : Prop := ∀ s : State, ∃ t, step s = .next t

/-- A machine with a latched fatal condition stays as it is for any number of steps, each reporting Halted (R91; D15). -/
def Obligations.HaltedMachineNeverChanges : Prop :=
  ∀ (s : State) (k : Fault) (n : Nat), s.fault = some k →
    core.run n s = .next s ∧ cycle s = .next ⟨s, ⟨.halted k, none, false⟩⟩

/-- In the key-wait a step with no key down changes nothing and reports Blocked; with keys down it writes the least of them
into Vx, ends the wait, ticks the timers and fetches nothing (R92; D14). -/
def Obligations.KeyWaitBlocksOrResumesOnLeastKey : Prop :=
  ∀ (s : State) (x : Index), s.fault = none → s.wait = some x →
    ((∀ k, s.keyDown k = false) → cycle s = .next ⟨s, ⟨.blocked, none, false⟩⟩ ∧ step s = .next s) ∧
    (∀ k, s.keyDown k = true → (∀ j, j < k → s.keyDown j = false) →
      ∃ t, cycle s = .next ⟨t, ⟨.resumed k, none, s.st == 1⟩⟩ ∧ step s = .next t ∧ t.wait = none ∧
        (∀ r, (t.reg r).toNat = if r = x then k.val else (s.reg r).toNat) ∧
        t.dt.toNat = s.dt.toNat - 1 ∧ t.st.toNat = s.st.toNat - 1 ∧
        KeepsAllBut [.regs, .delay, .sound, .wait] s t)

/-- A fetch with PC above 0xFFE reads nothing and latches PcOutOfRange in the state before the step (R94, R224; D11, D15). -/
def Obligations.FetchBeyondMemoryLatchesPcOutOfRange : Prop :=
  ∀ s : State, s.Running → 0xFFE < s.pc.toNat →
    step s = .next { s with fault := some .pcOutOfRange } ∧
    cycle s = .next ⟨{ s with fault := some .pcOutOfRange }, ⟨.fatal .pcOutOfRange, none, false⟩⟩

/-- An unrecognized word advances PC by 2, ticks the timers, writes nothing else and reports InvalidOpcode(w). The zero word is
such a word (R100; which words are unrecognized rests on D7 and D8, the tick on D22). -/
def Obligations.UnrecognizedWordOnlyAdvancesAndTicks : Prop :=
  (∀ ops, unrecognized ops 0x0000 = true) ∧
  ∀ s : State, s.Running → s.pc.toNat ≤ 0xFFE → unrecognized s.cfg.unlistedOps s.fetchWord = true →
    ∃ t, cycle s = .next ⟨t, ⟨.executed s.fetchWord, some (.invalidOpcode s.fetchWord), s.st == 1⟩⟩ ∧ step s = .next t ∧
      t.pc = s.pc + 2 ∧ t.dt.toNat = s.dt.toNat - 1 ∧ t.st.toNat = s.st.toNat - 1 ∧
      KeepsAllBut [.pc, .delay, .sound] s t

/-- SYS nnn completes, for every nnn, with no effect of its own (R101; D7). -/
def Obligations.SysHasNoEffectOfItsOwn : Prop :=
  ∀ (nnn : Addr12) (s : State), ∃ t, exec (.sys nnn) s = .next t ∧ KeepsAllBut [] s t

/-- A step of a running machine commits whole, or leaves the state before it with only `fault` changed (R99, R224; D15). -/
def Obligations.StepCommitsWholeOrLatchesOnly : Prop :=
  ∀ s t : State, s.Running → step s = .next t → t.fault = none ∨ ∃ k, t = { s with fault := some k }

/-- Each fatal condition is latched exactly when its condition in R221's table holds of the state before the step
(D2, D10, D11, D13; that the step latches it and commits nothing else rests on D15). -/
def Obligations.FatalConditionsHaveExactlyTheirCauses : Prop :=
  ∀ (s t : State) (k : Fault), s.Running → step s = .next t → (t.fault = some k ↔ FatalCause k s)

/-- After a completed fetching step each timer is one less, toward zero, than what the instruction left in it: Vx for Fx15 in DT
and Fx18 in ST, the old timer otherwise (R96, R186, R187; D14, D22). -/
def Obligations.TimersTickOncePerCompletedStep : Prop :=
  ∀ (s t : State), s.Running → step s = .next t → t.fault = none →
    (∀ x, s.Fetches (.ldDTVx x) → t.dt.toNat = (s.reg x).toNat - 1) ∧
    ((∀ x, ¬ s.Fetches (.ldDTVx x)) → t.dt.toNat = s.dt.toNat - 1) ∧
    (∀ x, s.Fetches (.ldSTVx x) → t.st.toNat = (s.reg x).toNat - 1) ∧
    ((∀ x, ¬ s.Fetches (.ldSTVx x)) → t.st.toNat = s.st.toNat - 1)

/-- The tone-stop cue is given exactly when the tick takes ST from 1 to 0: Fx18 with Vx = 1 gives it in its own step, Fx18
writing 0 never (R97, R187; D23). -/
def Obligations.ToneStopExactlyWhenTheTickZeroesSound : Prop :=
  ∀ (s : State) (c : Cycled), s.Running → cycle s = .next c → c.state.fault = none →
    (∀ x, s.Fetches (.ldSTVx x) → (c.out.toneStop = true ↔ (s.reg x).toNat = 1)) ∧
    ((∀ x, ¬ s.Fetches (.ldSTVx x)) → (c.out.toneStop = true ↔ s.st.toNat = 1))

/-! Invariants and whole-machine rules -/

/-- The state after construction meets both invariants, whatever the configuration (R28, R250; canonical memory is the model's
own form, notes/assumptions/7). -/
def Obligations.NewMachineMeetsTheInvariants : Prop :=
  (∀ cfg, (State.new cfg).Inv ∧ (State.new cfg).PcBounded) ∧ State.reset.Inv ∧ State.reset.PcBounded

/-- Every step keeps memory canonical and SP within STACK_CAP (R28; notes/assumptions/7; D2). -/
def Obligations.StepKeepsMemoryCanonicalAndStackBounded : Prop :=
  ∀ s t : State, s.Inv → step s = .next t → t.Inv

/-- Every step keeps PC at most 0x10FE and every return address at most 0x1000, so PC arithmetic never wraps (R94, R113, R114). -/
def Obligations.StepKeepsPcAndReturnAddressesBounded : Prop :=
  ∀ s t : State, s.PcBounded → step s = .next t → t.PcBounded

/-- Every transaction of the host, the step among them, answers, and keeps the invariant: the memory form, which is the model's own
(notes/assumptions/7), and SP within STACK_CAP (R28, D2). That each operation is a transaction of its own is notes/assumptions/10
(R61, R233), that `load` copies or fails whole rests on D26, and that a key index above 15 cannot be written on D30. -/
def Obligations.HostOperationsKeepTheInvariant : Prop :=
  ∀ (op : HostOp) (s : State), s.Inv → ∃ t r, transact op s = .next (t, r) ∧ t.Inv

/-- The keypad is read-only to the core and the configuration is fixed: no step changes either (R35, R38). -/
def Obligations.StepNeverWritesKeypadOrConfiguration : Prop :=
  ∀ s t : State, step s = .next t → t.keys = s.keys ∧ t.cfg = s.cfg

/-- A byte of memory changes in a step only if that step runs Fx33 or Fx55 and the byte is one of those it stores (R29, R202,
R203). -/
def Obligations.OnlyDecimalStoreAndDumpWriteMemory : Prop :=
  ∀ (s t : State) (a : Nat), step s = .next t → t.byteAt a ≠ s.byteAt a →
    (∃ x, s.Fetches (.ldBVx x) ∧ s.i.toNat ≤ a ∧ a ≤ s.i.toNat + 2) ∨
    (∃ x, s.Fetches (.ldMemVx x) ∧ s.i.toNat ≤ a ∧ a ≤ s.i.toNat + x.val)

/-- The display buffer or its dirty flag changes in a step only if that step runs 00E0 or Dxyn, and a completed one sets the
flag (R33, R168; D20). -/
def Obligations.OnlyClearAndDrawTouchTheDisplay : Prop :=
  ∀ s t : State, step s = .next t →
    ((t.disp ≠ s.disp ∨ t.dirty ≠ s.dirty) → s.Fetches .cls ∨ ∃ x y n, s.Fetches (.drw x y n)) ∧
    ((s.Fetches .cls ∨ ∃ x y n, s.Fetches (.drw x y n)) → t.fault = none → t.dirty = true)

/-- The stack changes only by CALL and RET, I only by its five writers; the key-wait begins only with Fx0A and no key down, and ends
only by the resume of R92, in which some key is down and no instruction runs (R23, R27, R36, R39, R92; D14). -/
def Obligations.StackIndexAndWaitHaveOnlyTheirWriters : Prop :=
  ∀ s t : State, step s = .next t →
    (t.stack ≠ s.stack → s.Fetches .ret ∨ ∃ nnn, s.Fetches (.call nnn)) ∧
    (t.i ≠ s.i → (∃ nnn, s.Fetches (.ldI nnn)) ∨
      ∃ x, s.Fetches (.addIVx x) ∨ s.Fetches (.ldFVx x) ∨ s.Fetches (.ldMemVx x) ∨ s.Fetches (.ldVxMem x)) ∧
    (∀ x, s.wait = none → t.wait = some x → s.Fetches (.ldVxK x) ∧ ∀ k, s.keyDown k = false) ∧
    (∀ x, s.wait = some x → t.wait = some x ∨ (t.wait = none ∧ s.fault = none ∧ ∃ k, s.keyDown k = true))

/-- A step that fetches `i` changes no general register but the destinations of `i`, VF among them only where R22 says a flag is
written or the destination is VF. -/
def Obligations.RegistersChangeOnlyAsDestinations : Prop :=
  ∀ (s t : State) (i : Instr) (r : Index), s.Fetches i → step s = .next t → r ∉ destinations i → t.reg r = s.reg r

/-- Outside the key-wait, a step that fetches none of Ex9E, ExA1 and Fx0A does not depend on the keypad, whether it runs another
instruction or a rejected word, has PC beyond memory or is halted (R35, R228). A key-wait step, which fetches nothing, does depend
on it (R92). The two runs are compared at one count of draws, so for RND the statement rests on the model's choice that both draw
the same byte (notes/assumptions/1, unsafe for such a comparison). -/
def Obligations.KeypadMattersOnlyToKeyInstructions : Prop :=
  ∀ (s t : State) (keys : Vector Bool 16), s.wait = none → (∀ i, s.Fetches i → ¬ readsKeypad i) → step s = .next t →
    step { s with keys := keys } = .next { t with keys := keys }

/-! Register arithmetic and logic -/

/-- R131: LD Vx, kk. -/
def Obligations.LoadImmediateWritesKk : Prop :=
  ∀ (x : Index) (kk : Byte) (s : State), ∃ t, exec (.ldImm x kk) s = .next t ∧ WritesResult s t x kk

/-- R132: ADD Vx, kk saturates at 255 and does not touch VF (unless x = F). -/
def Obligations.AddImmediateSaturates : Prop :=
  ∀ (x : Index) (kk : Byte) (s : State), ∃ t, exec (.addImm x kk) s = .next t ∧
    (∀ r, (t.reg r).toNat = if r = x then min ((s.reg x).toNat + kk.toNat) 255 else (s.reg r).toNat) ∧
    KeepsAllBut [.regs] s t

/-- R133: LD Vx, Vy. -/
def Obligations.LoadRegisterCopies : Prop :=
  ∀ (x y : Index) (s : State), ∃ t, exec (.ldReg x y) s = .next t ∧ WritesResult s t x (s.reg y)

/-- OR, AND and XOR are bitwise and leave VF (R134-R136; D19). -/
def Obligations.LogicalOperationsAreBitwise : Prop :=
  ∀ (x y : Index) (s : State),
    (∃ t, exec (.orReg x y) s = .next t ∧ KeepsAllBut [.regs] s t ∧ (∀ r, r ≠ x → t.reg r = s.reg r) ∧
      ∀ b, (t.reg x).getLsbD b = ((s.reg x).getLsbD b || (s.reg y).getLsbD b)) ∧
    (∃ t, exec (.andReg x y) s = .next t ∧ KeepsAllBut [.regs] s t ∧ (∀ r, r ≠ x → t.reg r = s.reg r) ∧
      ∀ b, (t.reg x).getLsbD b = ((s.reg x).getLsbD b && (s.reg y).getLsbD b)) ∧
    (∃ t, exec (.xorReg x y) s = .next t ∧ KeepsAllBut [.regs] s t ∧ (∀ r, r ≠ x → t.reg r = s.reg r) ∧
      ∀ b, (t.reg x).getLsbD b = ((s.reg x).getLsbD b ^^ (s.reg y).getLsbD b))

/-- R137: ADD Vx, Vy wraps modulo 256 and VF is the carry, written last. -/
def Obligations.AddRegisterWrapsAndCarries : Prop :=
  ∀ (x y : Index) (s : State), ∃ t, exec (.addReg x y) s = .next t ∧ ∃ result flag : Byte,
    WritesResultAndFlag s t x result flag ∧
    result.toNat = ((s.reg x).toNat + (s.reg y).toNat) % 256 ∧
    flag.toNat = if (s.reg x).toNat + (s.reg y).toNat > 255 then 1 else 0

/-- R138: SUB Vx, Vy saturates at 0 and VF is 1 exactly when Vx > Vy, written last. -/
def Obligations.SubRegisterSaturatesWithNotBorrow : Prop :=
  ∀ (x y : Index) (s : State), ∃ t, exec (.subReg x y) s = .next t ∧ ∃ result flag : Byte,
    WritesResultAndFlag s t x result flag ∧
    (result.toNat : Int) = max ((s.reg x).toNat - (s.reg y).toNat : Int) 0 ∧
    flag.toNat = if (s.reg x).toNat > (s.reg y).toNat then 1 else 0

/-- SHR Vx halves Vx, ignores y, and VF is the flag of SHIFT_FLAG_MODE: whether the low nibble is 1 (`source`), or bit 0
(`canonical`) (R139; D1, D18). -/
def Obligations.ShiftRightHalvesWithModeFlag : Prop :=
  ∀ (x y : Index) (s : State), ∃ t, exec (.shr x y) s = .next t ∧ ∃ result flag : Byte,
    WritesResultAndFlag s t x result flag ∧
    result.toNat = (s.reg x).toNat / 2 ∧
    (s.cfg.shiftFlagMode = .source → flag.toNat = if (s.reg x).toNat % 16 = 1 then 1 else 0) ∧
    (s.cfg.shiftFlagMode = .canonical → flag.toNat = (s.reg x).toNat % 2)

/-- SUBN Vx, Vy: Vy - Vx saturated at 0 or modulo 256 by SUBN_UNDERFLOW, VF = (Vy > Vx) (R140; D5, D6). -/
def Obligations.ReverseSubtractFollowsUnderflowMode : Prop :=
  ∀ (x y : Index) (s : State), ∃ t, exec (.subn x y) s = .next t ∧ ∃ result flag : Byte,
    WritesResultAndFlag s t x result flag ∧
    (s.cfg.subnUnderflow = .saturate → (result.toNat : Int) = max ((s.reg y).toNat - (s.reg x).toNat : Int) 0) ∧
    (s.cfg.subnUnderflow = .wrap → (result.toNat : Int) = ((s.reg y).toNat - (s.reg x).toNat : Int) % 256) ∧
    flag.toNat = if (s.reg y).toNat > (s.reg x).toNat then 1 else 0

/-- SHL Vx, Vy doubles Vy modulo 256 into Vx; VF is 0 (`source`) or bit 7 of Vy (`canonical`) (R141; D1, D17, D18). -/
def Obligations.ShiftLeftDoublesWithModeFlag : Prop :=
  ∀ (x y : Index) (s : State), ∃ t, exec (.shl x y) s = .next t ∧ ∃ result flag : Byte,
    WritesResultAndFlag s t x result flag ∧
    result.toNat = 2 * (s.reg y).toNat % 256 ∧
    (s.cfg.shiftFlagMode = .source → flag = 0) ∧
    (s.cfg.shiftFlagMode = .canonical → flag.toNat = (s.reg y).toNat / 128)

/-- RND Vx, kk writes the draw masked by kk: every bit outside kk is 0, every bit inside is the free byte's, whatever it is
(R142; D24; the free value is notes/assumptions/1), and the draw is used up. -/
def Obligations.RandomIsTheFreeDrawMasked : Prop :=
  ∀ (x : Index) (kk : Byte) (s : State), ∃ t, exec (.rnd x kk) s = .next t ∧ t.draws = s.draws + 1 ∧
    (∀ r, r ≠ x → t.reg r = s.reg r) ∧
    (∀ b, kk.getLsbD b = false → (t.reg x).getLsbD b = false) ∧
    (∀ b, kk.getLsbD b = true → (t.reg x).getLsbD b = (Config.freeByte s.draws).getLsbD b) ∧
    KeepsAllBut [.regs, .draws] s t

/-! Control transfer -/

/-- JP nnn and JP V0, nnn: the target replaces PC, the sum with V0 never wraps, and a target above 0xFFE is caught by the next
fetch (R112, R114; D5, D11). -/
def Obligations.JumpsReplaceThePc : Prop :=
  ∀ (nnn : Addr12) (s : State),
    (∃ t, exec (.jp nnn) s = .next t ∧ t.pc.toNat = nnn.toNat ∧ KeepsAllBut [.pc] s t ∧ NextFetchChecksPc t) ∧
    (∃ t, exec (.jpV0 nnn) s = .next t ∧ t.pc.toNat = nnn.toNat + (s.reg 0).toNat ∧ KeepsAllBut [.pc] s t ∧
      NextFetchChecksPc t)

/-- CALL nnn pushes the advanced PC and jumps; with STACK_CAP addresses held it raises StackOverflow and pushes nothing
(R113, R224; D2, D15). -/
def Obligations.CallPushesReturnAddressOrOverflows : Prop :=
  ∀ (nnn : Addr12) (s : State),
    (s.sp ≠ s.stackLimit → ∃ t, exec (.call nnn) s = .next t ∧ t.stack = s.stack ++ [s.pc] ∧ t.sp = s.sp + 1 ∧
      t.pc.toNat = nnn.toNat ∧ KeepsAllBut [.pc, .stack] s t) ∧
    (s.sp = s.stackLimit → ∃ t, exec (.call nnn) s = .next t ∧ Aborts s t .stackOverflow)

/-- RET pops the last pushed address into PC; with none it raises StackUnderflow (R111, R224; D2, D15). -/
def Obligations.ReturnPopsLastAddressOrUnderflows : Prop :=
  (∀ (s : State) (rest : List Word) (a : Word), s.stack = rest ++ [a] →
    ∃ t, exec .ret s = .next t ∧ t.pc = a ∧ t.stack = rest ∧ t.sp + 1 = s.sp ∧ KeepsAllBut [.pc, .stack] s t ∧
      NextFetchChecksPc t) ∧
  (∀ s : State, s.sp = 0 → ∃ t, exec .ret s = .next t ∧ Aborts s t .stackUnderflow)

/-- R115, R116: SE and SNE against an immediate skip two more bytes exactly when Vx = kk, or Vx ≠ kk. -/
def Obligations.ImmediateSkipsTestTheRegister : Prop :=
  ∀ (x : Index) (kk : Byte) (s : State),
    (∃ t, exec (.seImm x kk) s = .next t ∧ KeepsAllBut [.pc] s t ∧
      t.pc.toNat = (s.pc.toNat + if s.reg x = kk then 2 else 0) % 65536) ∧
    (∃ t, exec (.sneImm x kk) s = .next t ∧ KeepsAllBut [.pc] s t ∧
      t.pc.toNat = (s.pc.toNat + if s.reg x ≠ kk then 2 else 0) % 65536)

/-- R117, R118: SE and SNE of two registers; with x = y the first always skips and the second never; 5xyN and 9xyN with N ≠ 0
are unrecognized (the last clause rests on D8). -/
def Obligations.RegisterSkipsCompareRegisters : Prop :=
  (∀ (x y : Index) (s : State),
    (∃ t, exec (.seReg x y) s = .next t ∧ KeepsAllBut [.pc] s t ∧
      t.pc.toNat = (s.pc.toNat + if s.reg x = s.reg y then 2 else 0) % 65536) ∧
    (∃ t, exec (.sneReg x y) s = .next t ∧ KeepsAllBut [.pc] s t ∧
      t.pc.toNat = (s.pc.toNat + if s.reg x ≠ s.reg y then 2 else 0) % 65536)) ∧
  (∀ (ops : UnlistedOps) (w : Word), (w >>> 12 = 0x5 ∨ w >>> 12 = 0x9) → w &&& 0xF ≠ 0 → unrecognized ops w = true)

/-- SKP and SKNP skip by the level of key Vx; a key index above 15 raises KeyIndexOutOfRange (R180-R182; D13, D15). -/
def Obligations.KeySkipsTestTheKeyOrAbort : Prop :=
  ∀ (x : Index) (s : State),
    (∀ k : Index, (s.reg x).toNat = k.val →
      (∃ t, exec (.skp x) s = .next t ∧ KeepsAllBut [.pc] s t ∧
        t.pc.toNat = (s.pc.toNat + if s.keyDown k = true then 2 else 0) % 65536) ∧
      (∃ t, exec (.sknp x) s = .next t ∧ KeepsAllBut [.pc] s t ∧
        t.pc.toNat = (s.pc.toNat + if s.keyDown k = false then 2 else 0) % 65536)) ∧
    (15 < (s.reg x).toNat →
      (∃ t, exec (.skp x) s = .next t ∧ Aborts s t .keyIndexOutOfRange) ∧
      (∃ t, exec (.sknp x) s = .next t ∧ Aborts s t .keyIndexOutOfRange))

/-! Display -/

/-- CLS clears every cell and sets the dirty flag, VF unchanged (R161; D20). -/
def Obligations.ClearScreenClearsEveryCell : Prop :=
  ∀ s : State, ∃ t, exec .cls s = .next t ∧ t.dirty = true ∧ (∀ r c, r < 32 → c < 64 → pixel t.disp r c = false) ∧
    KeepsAllBut [.display] s t

/-- DRW: exactly the pixels under a set sprite bit are toggled, wrapped on both axes, VF tells whether one of them was 1, and
the dirty flag is set (R160, R162, R163; D9, D10, D20). -/
def Obligations.DrawTogglesExactlyThePixelsUnderTheSprite : Prop :=
  ∀ (x y : Index) (n : Fin 16) (s : State), s.i.toNat + n.val ≤ 0x1000 ∨ n = 0 →
    ∃ t, exec (.drw x y n) s = .next t ∧ t.dirty = true ∧
      (∀ r c, r < 32 → c < 64 → UnderSprite s x y n r c → pixel t.disp r c = !pixel s.disp r c) ∧
      (∀ r c, r < 32 → c < 64 → ¬ UnderSprite s x y n r c → pixel t.disp r c = pixel s.disp r c) ∧
      ((∃ r c, UnderSprite s x y n r c ∧ pixel s.disp r c = true) → t.reg vfIndex = 1) ∧
      ((∀ r c, UnderSprite s x y n r c → pixel s.disp r c = false) → t.reg vfIndex = 0) ∧
      (∀ r, r ≠ vfIndex → t.reg r = s.reg r) ∧
      KeepsAllBut [.regs, .display] s t

/-- DRW with a sprite byte beyond 0xFFF raises AddressOutOfRange and draws nothing (R163, R224; D10, D15). -/
def Obligations.DrawBeyondMemoryAborts : Prop :=
  ∀ (x y : Index) (n : Fin 16) (s : State), 0 < n.val → 0xFFF < s.i.toNat + n.val - 1 →
    ∃ t, exec (.drw x y n) s = .next t ∧ Aborts s t .addressOutOfRange

/-- Drawing the same sprite twice at one place gives the display back, and the second VF tells whether some pixel under a set
sprite bit was 0 before the first (R164; D9, D10). -/
def Obligations.DrawingTwiceRestoresTheDisplay : Prop :=
  ∀ (x y : Index) (n : Fin 16) (s t u : State), x ≠ vfIndex → y ≠ vfIndex → s.i.toNat + n.val ≤ 0x1000 ∨ n = 0 →
    exec (.drw x y n) s = .next t → exec (.drw x y n) t = .next u →
    u.disp = s.disp ∧ (u.reg vfIndex = 1 ↔ ∃ r c, UnderSprite s x y n r c ∧ pixel s.disp r c = false)

/-- Annn loads I, and Fx29 loads the glyph address: 5 · Vx, or five times the low nibble, by FONT_ADDR_MODE; for Vx ≤ 15 both
agree (R165, R200; D4, D5). -/
def Obligations.IndexLoadsAndGlyphAddresses : Prop :=
  ∀ (nnn : Addr12) (x : Index) (s : State),
    (∃ t, exec (.ldI nnn) s = .next t ∧ t.i.toNat = nnn.toNat ∧ KeepsAllBut [.index] s t) ∧
    (∃ t, exec (.ldFVx x) s = .next t ∧ KeepsAllBut [.index] s t ∧
      (s.cfg.fontAddrMode = .times5 → t.i.toNat = (s.reg x).toNat * 5) ∧
      (s.cfg.fontAddrMode = .lowNibble → t.i.toNat = (s.reg x).toNat % 16 * 5) ∧
      ((s.reg x).toNat ≤ 15 → t.i.toNat = 5 * (s.reg x).toNat))

/-! Keypad and timers -/

/-- Fx07 reads DT as it is before the tick, Fx15 and Fx18 write Vx into DT and ST (R183, R186, R187; the tick that follows is
TimersTickOncePerCompletedStep). -/
def Obligations.TimerMovesCopyTheRegisters : Prop :=
  ∀ (x : Index) (s : State),
    (∃ t, exec (.ldVxDT x) s = .next t ∧ WritesResult s t x s.dt) ∧
    (∃ t, exec (.ldDTVx x) s = .next t ∧ t.dt = s.reg x ∧ KeepsAllBut [.delay] s t) ∧
    (∃ t, exec (.ldSTVx x) s = .next t ∧ t.st = s.reg x ∧ KeepsAllBut [.sound] s t)

/-- Fx0A with a key down writes the least key's index into Vx at once; with none down it enters the key-wait and writes nothing
else (R184; D14). -/
def Obligations.WaitForKeyTakesLeastKeyOrWaits : Prop :=
  ∀ (x : Index) (s : State),
    (∀ k, s.keyDown k = true → (∀ j, j < k → s.keyDown j = false) →
      ∃ t, exec (.ldVxK x) s = .next t ∧ KeepsAllBut [.regs] s t ∧
        ∀ r, (t.reg r).toNat = if r = x then k.val else (s.reg r).toNat) ∧
    ((∀ k, s.keyDown k = false) →
      ∃ t, exec (.ldVxK x) s = .next t ∧ t.wait = some x ∧ KeepsAllBut [.wait] s t)

/-! Index register and memory -/

/-- R201: ADD I, Vx is a 16-bit add with no flag. -/
def Obligations.AddToIndexWrapsWithoutFlag : Prop :=
  ∀ (x : Index) (s : State), ∃ t, exec (.addIVx x) s = .next t ∧
    t.i.toNat = (s.i.toNat + (s.reg x).toNat) % 65536 ∧ KeepsAllBut [.index] s t

/-- Fx33 stores hundreds, tens and ones of Vx at I, I + 1 and I + 2 and nothing else; beyond 0xFFF it raises AddressOutOfRange
and stores no byte (R202, R224; D10, D15). -/
def Obligations.DecimalStoreWritesThreeDigitsOrAborts : Prop :=
  ∀ (x : Index) (s : State),
    (s.indexed 2 ≤ 0xFFF → ∃ t, exec (.ldBVx x) s = .next t ∧
      100 * (t.byteAt (s.indexed 0)).toNat + 10 * (t.byteAt (s.indexed 1)).toNat + (t.byteAt (s.indexed 2)).toNat =
        (s.reg x).toNat ∧
      (t.byteAt (s.indexed 1)).toNat ≤ 9 ∧ (t.byteAt (s.indexed 2)).toNat ≤ 9 ∧
      (∀ a, a < s.indexed 0 ∨ s.indexed 2 < a → t.byteAt a = s.byteAt a) ∧
      KeepsAllBut [.memory] s t) ∧
    (0xFFF < s.indexed 2 → ∃ t, exec (.ldBVx x) s = .next t ∧ Aborts s t .addressOutOfRange)

/-- Fx55 stores V0 to Vx at I to I + x and nothing else, then adds x + 1 to I; beyond 0xFFF it raises AddressOutOfRange and
stores no byte (R203, R224; D10, D15). -/
def Obligations.RegisterDumpStoresAscendingOrAborts : Prop :=
  ∀ (x : Index) (s : State),
    (s.indexed x.val ≤ 0xFFF → ∃ t, exec (.ldMemVx x) s = .next t ∧
      (∀ r, r ≤ x → t.byteAt (s.indexed r.val) = s.reg r) ∧
      (∀ a, a < s.indexed 0 ∨ s.indexed x.val < a → t.byteAt a = s.byteAt a) ∧
      t.i.toNat = (s.i.toNat + x.val + 1) % 65536 ∧
      KeepsAllBut [.memory, .index] s t) ∧
    (0xFFF < s.indexed x.val → ∃ t, exec (.ldMemVx x) s = .next t ∧ Aborts s t .addressOutOfRange)

/-- Fx65 loads V0 to Vx from I to I + x, leaves the other registers, then adds x + 1 to I; beyond 0xFFF it raises
AddressOutOfRange and loads nothing (R204, R224; D10, D15). -/
def Obligations.RegisterLoadReadsAscendingOrAborts : Prop :=
  ∀ (x : Index) (s : State),
    (s.indexed x.val ≤ 0xFFF → ∃ t, exec (.ldVxMem x) s = .next t ∧
      (∀ r, t.reg r = if r ≤ x then s.byteAt (s.indexed r.val) else s.reg r) ∧
      t.i.toNat = (s.i.toNat + x.val + 1) % 65536 ∧
      KeepsAllBut [.regs, .index] s t) ∧
    (0xFFF < s.indexed x.val → ∃ t, exec (.ldVxMem x) s = .next t ∧ Aborts s t .addressOutOfRange)

/-! Sequences of two instructions -/

/-- Dumping V0 to Vx and loading them back from the same I gives the registers back, whatever they held in between. -/
def Obligations.DumpThenLoadRestoresTheRegisters : Prop :=
  ∀ (x : Index) (s t u v : State), s.indexed x.val ≤ 0xFFF → exec (.ldMemVx x) s = .next t →
    u.i = s.i → u.cfg = t.cfg → u.mem = t.mem → exec (.ldVxMem x) u = .next v →
    (∀ r, r ≤ x → v.reg r = s.reg r) ∧ (∀ r, x < r → v.reg r = u.reg r)

/-- A CALL whose target holds RET comes back, two steps later, to the instruction after the CALL with the stack as it was
(R111, R113; D2). -/
def Obligations.CallThenReturnComesBack : Prop :=
  ∀ (s t u : State) (nnn : Addr12), s.Fetches (.call nnn) → s.sp ≠ s.stackLimit → nnn.toNat ≤ 0xFFE →
    s.byteAt nnn.toNat = 0x00 → s.byteAt (nnn.toNat + 1) = 0xEE → step s = .next t → step t = .next u →
    u.pc = s.pc + 2 ∧ u.stack = s.stack ∧ u.fault = none ∧ (∀ r, u.reg r = s.reg r) ∧
    u.dt.toNat = s.dt.toNat - 2 ∧ u.st.toNat = s.st.toNat - 2

/-- Code stored by Fx55 over the instruction that follows it is what the very next step fetches (R65, R257). -/
def Obligations.StoredBytesAreFetchedByTheNextStep : Prop :=
  ∀ (s t : State) (x : Index), s.Fetches (.ldMemVx x) → 1 ≤ x.val → s.i = s.pc + 2 → s.indexed x.val ≤ 0xFFF →
    step s = .next t →
    t.pc = s.pc + 2 ∧ t.fetchWord = s.reg 0 ++ s.reg 1 ∧
    ∀ i, decodeWord s.cfg.unlistedOps (s.reg 0 ++ s.reg 1) = .ok i → t.Fetches i

/-! Construction, reset, load and the host's view -/

/-- `new()`: the font at 0x000-0x04F, every other cell 0, PC = 0x200, everything else zero, empty, up or none (R250; D21, D25).
The count of draws is the model's own and no clause rests on it. -/
def Obligations.NewMachineHasTheSpecsValues : Prop :=
  ∀ (cfg : Cfg) (s : State), s = State.new cfg → s.cfg = cfg ∧
    (∀ (a : Nat) (h : a < 80), s.byteAt a = cfg.font[a]) ∧ (∀ a, 80 ≤ a → s.byteAt a = 0) ∧
    (∀ r, s.reg r = 0) ∧ s.i = 0 ∧ s.pc = 0x200 ∧ s.stack = [] ∧ s.sp = 0 ∧ s.dt = 0 ∧ s.st = 0 ∧
    (∀ r c, pixel s.disp r c = false) ∧ s.dirty = false ∧ (∀ k, s.keyDown k = false) ∧ s.wait = none ∧ s.fault = none

/-- `reset()` changes no memory cell and puts every other field of R250 back (R251; D15, D21, D25). -/
def Obligations.HostResetKeepsEveryMemoryCell : Prop :=
  ∀ s : State, ∃ t, transact .reset s = .next (t, .done) ∧ (∀ a, t.byteAt a = s.byteAt a) ∧ t.cfg = s.cfg ∧
    (∀ r, t.reg r = 0) ∧ t.i = 0 ∧ t.pc = 0x200 ∧ t.stack = [] ∧ t.dt = 0 ∧ t.st = 0 ∧
    (∀ r c, pixel t.disp r c = false) ∧ t.dirty = false ∧ (∀ k, t.keyDown k = false) ∧ t.wait = none ∧ t.fault = none

/-- `load(bytes)`: up to 3584 bytes are copied verbatim from 0x200 on and nothing else changes; a longer program fails and
changes nothing (R252; D26). -/
def Obligations.LoadCopiesVerbatimOrFails : Prop :=
  ∀ (s : State) (bytes : List Byte),
    (bytes.length ≤ 3584 → ∃ t, transact (.load bytes) s = .next (t, .done) ∧
      (∀ (k : Nat) (h : k < bytes.length), t.byteAt (0x200 + k) = bytes[k]) ∧
      (∀ a, a < 0x200 ∨ 0x200 + bytes.length ≤ a → t.byteAt a = s.byteAt a) ∧
      KeepsAllBut [.memory] s t) ∧
    (3584 < bytes.length → transact (.load bytes) s = .next (s, .failed .loadTooLarge))

/-- `should_draw()` returns and clears the dirty flag, `get_display()` returns the buffer and changes nothing, and
`set_key(k, down)` sets one key flag and nothing else (R166, R167, R236; D30). -/
def Obligations.HostViewsAndKeysDoWhatTheySay : Prop :=
  ∀ (s : State) (k : Index) (down : Bool),
    (∃ t, transact .shouldDraw s = .next (t, .drawNeeded s.dirty) ∧ t.dirty = false ∧
      { t with dirty := s.dirty } = s ∧ transact .shouldDraw t = .next (t, .drawNeeded false)) ∧
    transact .getDisplay s = .next (s, .display s.disp) ∧
    (∃ t, transact (.setKey k down) s = .next (t, .done) ∧ t.keyDown k = down ∧
      (∀ j, j ≠ k → t.keyDown j = s.keyDown j) ∧ { t with keys := s.keys } = s)
end

