-- ==== Sys2Proof/Laws/State.lean ====
section
/-! SUPPORT. What each update of the state leaves in each field, so that no later proof unfolds a record update. -/

namespace Sys2Proof.Machine

/-! `State.setReg` -/

@[simp] theorem State.setReg_cfg (s : State) (x : Index) (b : Byte) : (s.setReg x b).cfg = s.cfg := rfl
@[simp] theorem State.setReg_i (s : State) (x : Index) (b : Byte) : (s.setReg x b).i = s.i := rfl
@[simp] theorem State.setReg_pc (s : State) (x : Index) (b : Byte) : (s.setReg x b).pc = s.pc := rfl
@[simp] theorem State.setReg_stack (s : State) (x : Index) (b : Byte) : (s.setReg x b).stack = s.stack := rfl
@[simp] theorem State.setReg_dt (s : State) (x : Index) (b : Byte) : (s.setReg x b).dt = s.dt := rfl
@[simp] theorem State.setReg_st (s : State) (x : Index) (b : Byte) : (s.setReg x b).st = s.st := rfl
@[simp] theorem State.setReg_disp (s : State) (x : Index) (b : Byte) : (s.setReg x b).disp = s.disp := rfl
@[simp] theorem State.setReg_dirty (s : State) (x : Index) (b : Byte) : (s.setReg x b).dirty = s.dirty := rfl
@[simp] theorem State.setReg_keys (s : State) (x : Index) (b : Byte) : (s.setReg x b).keys = s.keys := rfl
@[simp] theorem State.setReg_wait (s : State) (x : Index) (b : Byte) : (s.setReg x b).wait = s.wait := rfl
@[simp] theorem State.setReg_fault (s : State) (x : Index) (b : Byte) : (s.setReg x b).fault = s.fault := rfl
@[simp] theorem State.setReg_mem (s : State) (x : Index) (b : Byte) : (s.setReg x b).mem = s.mem := rfl
@[simp] theorem State.setReg_draws (s : State) (x : Index) (b : Byte) : (s.setReg x b).draws = s.draws := rfl

/-! `State.setVF` -/

@[simp] theorem State.setVF_cfg (s : State) (b : Byte) : (s.setVF b).cfg = s.cfg := rfl
@[simp] theorem State.setVF_i (s : State) (b : Byte) : (s.setVF b).i = s.i := rfl
@[simp] theorem State.setVF_pc (s : State) (b : Byte) : (s.setVF b).pc = s.pc := rfl
@[simp] theorem State.setVF_stack (s : State) (b : Byte) : (s.setVF b).stack = s.stack := rfl
@[simp] theorem State.setVF_dt (s : State) (b : Byte) : (s.setVF b).dt = s.dt := rfl
@[simp] theorem State.setVF_st (s : State) (b : Byte) : (s.setVF b).st = s.st := rfl
@[simp] theorem State.setVF_disp (s : State) (b : Byte) : (s.setVF b).disp = s.disp := rfl
@[simp] theorem State.setVF_dirty (s : State) (b : Byte) : (s.setVF b).dirty = s.dirty := rfl
@[simp] theorem State.setVF_keys (s : State) (b : Byte) : (s.setVF b).keys = s.keys := rfl
@[simp] theorem State.setVF_wait (s : State) (b : Byte) : (s.setVF b).wait = s.wait := rfl
@[simp] theorem State.setVF_fault (s : State) (b : Byte) : (s.setVF b).fault = s.fault := rfl
@[simp] theorem State.setVF_mem (s : State) (b : Byte) : (s.setVF b).mem = s.mem := rfl
@[simp] theorem State.setVF_draws (s : State) (b : Byte) : (s.setVF b).draws = s.draws := rfl

/-! `State.setByte` -/

@[simp] theorem State.setByte_cfg (s : State) (a : Nat) (b : Byte) : (s.setByte a b).cfg = s.cfg := rfl
@[simp] theorem State.setByte_v (s : State) (a : Nat) (b : Byte) : (s.setByte a b).v = s.v := rfl
@[simp] theorem State.setByte_i (s : State) (a : Nat) (b : Byte) : (s.setByte a b).i = s.i := rfl
@[simp] theorem State.setByte_pc (s : State) (a : Nat) (b : Byte) : (s.setByte a b).pc = s.pc := rfl
@[simp] theorem State.setByte_stack (s : State) (a : Nat) (b : Byte) : (s.setByte a b).stack = s.stack := rfl
@[simp] theorem State.setByte_dt (s : State) (a : Nat) (b : Byte) : (s.setByte a b).dt = s.dt := rfl
@[simp] theorem State.setByte_st (s : State) (a : Nat) (b : Byte) : (s.setByte a b).st = s.st := rfl
@[simp] theorem State.setByte_disp (s : State) (a : Nat) (b : Byte) : (s.setByte a b).disp = s.disp := rfl
@[simp] theorem State.setByte_dirty (s : State) (a : Nat) (b : Byte) : (s.setByte a b).dirty = s.dirty := rfl
@[simp] theorem State.setByte_keys (s : State) (a : Nat) (b : Byte) : (s.setByte a b).keys = s.keys := rfl
@[simp] theorem State.setByte_wait (s : State) (a : Nat) (b : Byte) : (s.setByte a b).wait = s.wait := rfl
@[simp] theorem State.setByte_fault (s : State) (a : Nat) (b : Byte) : (s.setByte a b).fault = s.fault := rfl
@[simp] theorem State.setByte_mem (s : State) (a : Nat) (b : Byte) : (s.setByte a b).mem = Memory.write s.cfg.font s.mem a b := rfl
@[simp] theorem State.setByte_draws (s : State) (a : Nat) (b : Byte) : (s.setByte a b).draws = s.draws := rfl

/-! `State.advance` -/

@[simp] theorem State.advance_cfg (s : State) : (s.advance).cfg = s.cfg := rfl
@[simp] theorem State.advance_v (s : State) : (s.advance).v = s.v := rfl
@[simp] theorem State.advance_i (s : State) : (s.advance).i = s.i := rfl
@[simp] theorem State.advance_pc (s : State) : (s.advance).pc = s.pc + 2 := rfl
@[simp] theorem State.advance_stack (s : State) : (s.advance).stack = s.stack := rfl
@[simp] theorem State.advance_dt (s : State) : (s.advance).dt = s.dt := rfl
@[simp] theorem State.advance_st (s : State) : (s.advance).st = s.st := rfl
@[simp] theorem State.advance_disp (s : State) : (s.advance).disp = s.disp := rfl
@[simp] theorem State.advance_dirty (s : State) : (s.advance).dirty = s.dirty := rfl
@[simp] theorem State.advance_keys (s : State) : (s.advance).keys = s.keys := rfl
@[simp] theorem State.advance_wait (s : State) : (s.advance).wait = s.wait := rfl
@[simp] theorem State.advance_fault (s : State) : (s.advance).fault = s.fault := rfl
@[simp] theorem State.advance_mem (s : State) : (s.advance).mem = s.mem := rfl
@[simp] theorem State.advance_draws (s : State) : (s.advance).draws = s.draws := rfl

/-! `State.skip` -/

@[simp] theorem State.skip_cfg (s : State) : (s.skip).cfg = s.cfg := rfl
@[simp] theorem State.skip_v (s : State) : (s.skip).v = s.v := rfl
@[simp] theorem State.skip_i (s : State) : (s.skip).i = s.i := rfl
@[simp] theorem State.skip_pc (s : State) : (s.skip).pc = s.pc + 2 := rfl
@[simp] theorem State.skip_stack (s : State) : (s.skip).stack = s.stack := rfl
@[simp] theorem State.skip_dt (s : State) : (s.skip).dt = s.dt := rfl
@[simp] theorem State.skip_st (s : State) : (s.skip).st = s.st := rfl
@[simp] theorem State.skip_disp (s : State) : (s.skip).disp = s.disp := rfl
@[simp] theorem State.skip_dirty (s : State) : (s.skip).dirty = s.dirty := rfl
@[simp] theorem State.skip_keys (s : State) : (s.skip).keys = s.keys := rfl
@[simp] theorem State.skip_wait (s : State) : (s.skip).wait = s.wait := rfl
@[simp] theorem State.skip_fault (s : State) : (s.skip).fault = s.fault := rfl
@[simp] theorem State.skip_mem (s : State) : (s.skip).mem = s.mem := rfl
@[simp] theorem State.skip_draws (s : State) : (s.skip).draws = s.draws := rfl

/-! `State.jump` -/

@[simp] theorem State.jump_cfg (s : State) (a : Word) : (s.jump a).cfg = s.cfg := rfl
@[simp] theorem State.jump_v (s : State) (a : Word) : (s.jump a).v = s.v := rfl
@[simp] theorem State.jump_i (s : State) (a : Word) : (s.jump a).i = s.i := rfl
@[simp] theorem State.jump_pc (s : State) (a : Word) : (s.jump a).pc = a := rfl
@[simp] theorem State.jump_stack (s : State) (a : Word) : (s.jump a).stack = s.stack := rfl
@[simp] theorem State.jump_dt (s : State) (a : Word) : (s.jump a).dt = s.dt := rfl
@[simp] theorem State.jump_st (s : State) (a : Word) : (s.jump a).st = s.st := rfl
@[simp] theorem State.jump_disp (s : State) (a : Word) : (s.jump a).disp = s.disp := rfl
@[simp] theorem State.jump_dirty (s : State) (a : Word) : (s.jump a).dirty = s.dirty := rfl
@[simp] theorem State.jump_keys (s : State) (a : Word) : (s.jump a).keys = s.keys := rfl
@[simp] theorem State.jump_wait (s : State) (a : Word) : (s.jump a).wait = s.wait := rfl
@[simp] theorem State.jump_fault (s : State) (a : Word) : (s.jump a).fault = s.fault := rfl
@[simp] theorem State.jump_mem (s : State) (a : Word) : (s.jump a).mem = s.mem := rfl
@[simp] theorem State.jump_draws (s : State) (a : Word) : (s.jump a).draws = s.draws := rfl

/-! `State.latch` -/

@[simp] theorem State.latch_cfg (s : State) (k : Fault) : (s.latch k).cfg = s.cfg := rfl
@[simp] theorem State.latch_v (s : State) (k : Fault) : (s.latch k).v = s.v := rfl
@[simp] theorem State.latch_i (s : State) (k : Fault) : (s.latch k).i = s.i := rfl
@[simp] theorem State.latch_pc (s : State) (k : Fault) : (s.latch k).pc = s.pc := rfl
@[simp] theorem State.latch_stack (s : State) (k : Fault) : (s.latch k).stack = s.stack := rfl
@[simp] theorem State.latch_dt (s : State) (k : Fault) : (s.latch k).dt = s.dt := rfl
@[simp] theorem State.latch_st (s : State) (k : Fault) : (s.latch k).st = s.st := rfl
@[simp] theorem State.latch_disp (s : State) (k : Fault) : (s.latch k).disp = s.disp := rfl
@[simp] theorem State.latch_dirty (s : State) (k : Fault) : (s.latch k).dirty = s.dirty := rfl
@[simp] theorem State.latch_keys (s : State) (k : Fault) : (s.latch k).keys = s.keys := rfl
@[simp] theorem State.latch_wait (s : State) (k : Fault) : (s.latch k).wait = s.wait := rfl
@[simp] theorem State.latch_fault (s : State) (k : Fault) : (s.latch k).fault = some k := rfl
@[simp] theorem State.latch_mem (s : State) (k : Fault) : (s.latch k).mem = s.mem := rfl
@[simp] theorem State.latch_draws (s : State) (k : Fault) : (s.latch k).draws = s.draws := rfl

/-! `State.takeFatal` -/

@[simp] theorem State.takeFatal_cfg (s : State) (k : Fault) : (s.takeFatal k).cfg = s.cfg := rfl
@[simp] theorem State.takeFatal_v (s : State) (k : Fault) : (s.takeFatal k).v = s.v := rfl
@[simp] theorem State.takeFatal_i (s : State) (k : Fault) : (s.takeFatal k).i = s.i := rfl
@[simp] theorem State.takeFatal_pc (s : State) (k : Fault) : (s.takeFatal k).pc = s.pc - 2 := rfl
@[simp] theorem State.takeFatal_stack (s : State) (k : Fault) : (s.takeFatal k).stack = s.stack := rfl
@[simp] theorem State.takeFatal_dt (s : State) (k : Fault) : (s.takeFatal k).dt = s.dt := rfl
@[simp] theorem State.takeFatal_st (s : State) (k : Fault) : (s.takeFatal k).st = s.st := rfl
@[simp] theorem State.takeFatal_disp (s : State) (k : Fault) : (s.takeFatal k).disp = s.disp := rfl
@[simp] theorem State.takeFatal_dirty (s : State) (k : Fault) : (s.takeFatal k).dirty = s.dirty := rfl
@[simp] theorem State.takeFatal_keys (s : State) (k : Fault) : (s.takeFatal k).keys = s.keys := rfl
@[simp] theorem State.takeFatal_wait (s : State) (k : Fault) : (s.takeFatal k).wait = s.wait := rfl
@[simp] theorem State.takeFatal_fault (s : State) (k : Fault) : (s.takeFatal k).fault = some k := rfl
@[simp] theorem State.takeFatal_mem (s : State) (k : Fault) : (s.takeFatal k).mem = s.mem := rfl
@[simp] theorem State.takeFatal_draws (s : State) (k : Fault) : (s.takeFatal k).draws = s.draws := rfl

/-! `State.tick` -/

@[simp] theorem State.tick_cfg (s : State) : (s.tick).cfg = s.cfg := rfl
@[simp] theorem State.tick_v (s : State) : (s.tick).v = s.v := rfl
@[simp] theorem State.tick_i (s : State) : (s.tick).i = s.i := rfl
@[simp] theorem State.tick_pc (s : State) : (s.tick).pc = s.pc := rfl
@[simp] theorem State.tick_stack (s : State) : (s.tick).stack = s.stack := rfl
@[simp] theorem State.tick_dt (s : State) : (s.tick).dt = countDown s.dt := rfl
@[simp] theorem State.tick_st (s : State) : (s.tick).st = countDown s.st := rfl
@[simp] theorem State.tick_disp (s : State) : (s.tick).disp = s.disp := rfl
@[simp] theorem State.tick_dirty (s : State) : (s.tick).dirty = s.dirty := rfl
@[simp] theorem State.tick_keys (s : State) : (s.tick).keys = s.keys := rfl
@[simp] theorem State.tick_wait (s : State) : (s.tick).wait = s.wait := rfl
@[simp] theorem State.tick_fault (s : State) : (s.tick).fault = s.fault := rfl
@[simp] theorem State.tick_mem (s : State) : (s.tick).mem = s.mem := rfl
@[simp] theorem State.tick_draws (s : State) : (s.tick).draws = s.draws := rfl

/-! `State.setI` -/

@[simp] theorem State.setI_cfg (s : State) (a : Word) : (s.setI a).cfg = s.cfg := rfl
@[simp] theorem State.setI_v (s : State) (a : Word) : (s.setI a).v = s.v := rfl
@[simp] theorem State.setI_i (s : State) (a : Word) : (s.setI a).i = a := rfl
@[simp] theorem State.setI_pc (s : State) (a : Word) : (s.setI a).pc = s.pc := rfl
@[simp] theorem State.setI_stack (s : State) (a : Word) : (s.setI a).stack = s.stack := rfl
@[simp] theorem State.setI_dt (s : State) (a : Word) : (s.setI a).dt = s.dt := rfl
@[simp] theorem State.setI_st (s : State) (a : Word) : (s.setI a).st = s.st := rfl
@[simp] theorem State.setI_disp (s : State) (a : Word) : (s.setI a).disp = s.disp := rfl
@[simp] theorem State.setI_dirty (s : State) (a : Word) : (s.setI a).dirty = s.dirty := rfl
@[simp] theorem State.setI_keys (s : State) (a : Word) : (s.setI a).keys = s.keys := rfl
@[simp] theorem State.setI_wait (s : State) (a : Word) : (s.setI a).wait = s.wait := rfl
@[simp] theorem State.setI_fault (s : State) (a : Word) : (s.setI a).fault = s.fault := rfl
@[simp] theorem State.setI_mem (s : State) (a : Word) : (s.setI a).mem = s.mem := rfl
@[simp] theorem State.setI_draws (s : State) (a : Word) : (s.setI a).draws = s.draws := rfl

/-! `State.addI` -/

@[simp] theorem State.addI_cfg (s : State) (k : Word) : (s.addI k).cfg = s.cfg := rfl
@[simp] theorem State.addI_v (s : State) (k : Word) : (s.addI k).v = s.v := rfl
@[simp] theorem State.addI_i (s : State) (k : Word) : (s.addI k).i = s.i + k := rfl
@[simp] theorem State.addI_pc (s : State) (k : Word) : (s.addI k).pc = s.pc := rfl
@[simp] theorem State.addI_stack (s : State) (k : Word) : (s.addI k).stack = s.stack := rfl
@[simp] theorem State.addI_dt (s : State) (k : Word) : (s.addI k).dt = s.dt := rfl
@[simp] theorem State.addI_st (s : State) (k : Word) : (s.addI k).st = s.st := rfl
@[simp] theorem State.addI_disp (s : State) (k : Word) : (s.addI k).disp = s.disp := rfl
@[simp] theorem State.addI_dirty (s : State) (k : Word) : (s.addI k).dirty = s.dirty := rfl
@[simp] theorem State.addI_keys (s : State) (k : Word) : (s.addI k).keys = s.keys := rfl
@[simp] theorem State.addI_wait (s : State) (k : Word) : (s.addI k).wait = s.wait := rfl
@[simp] theorem State.addI_fault (s : State) (k : Word) : (s.addI k).fault = s.fault := rfl
@[simp] theorem State.addI_mem (s : State) (k : Word) : (s.addI k).mem = s.mem := rfl
@[simp] theorem State.addI_draws (s : State) (k : Word) : (s.addI k).draws = s.draws := rfl

/-! `State.drawn` -/

@[simp] theorem State.drawn_cfg (s : State) (x y : Index) (bytes : List Byte) : (s.drawn x y bytes).cfg = s.cfg := rfl
@[simp] theorem State.drawn_i (s : State) (x y : Index) (bytes : List Byte) : (s.drawn x y bytes).i = s.i := rfl
@[simp] theorem State.drawn_pc (s : State) (x y : Index) (bytes : List Byte) : (s.drawn x y bytes).pc = s.pc := rfl
@[simp] theorem State.drawn_stack (s : State) (x y : Index) (bytes : List Byte) : (s.drawn x y bytes).stack = s.stack := rfl
@[simp] theorem State.drawn_dt (s : State) (x y : Index) (bytes : List Byte) : (s.drawn x y bytes).dt = s.dt := rfl
@[simp] theorem State.drawn_st (s : State) (x y : Index) (bytes : List Byte) : (s.drawn x y bytes).st = s.st := rfl
@[simp] theorem State.drawn_disp (s : State) (x y : Index) (bytes : List Byte) : (s.drawn x y bytes).disp = (drawSprite (s.reg y).toNat (s.reg x).toNat bytes (s.disp, false)).1 := rfl
@[simp] theorem State.drawn_dirty (s : State) (x y : Index) (bytes : List Byte) : (s.drawn x y bytes).dirty = true := rfl
@[simp] theorem State.drawn_keys (s : State) (x y : Index) (bytes : List Byte) : (s.drawn x y bytes).keys = s.keys := rfl
@[simp] theorem State.drawn_wait (s : State) (x y : Index) (bytes : List Byte) : (s.drawn x y bytes).wait = s.wait := rfl
@[simp] theorem State.drawn_fault (s : State) (x y : Index) (bytes : List Byte) : (s.drawn x y bytes).fault = s.fault := rfl
@[simp] theorem State.drawn_mem (s : State) (x y : Index) (bytes : List Byte) : (s.drawn x y bytes).mem = s.mem := rfl
@[simp] theorem State.drawn_draws (s : State) (x y : Index) (bytes : List Byte) : (s.drawn x y bytes).draws = s.draws := rfl

/-! `State.setResultAndFlag` -/

@[simp] theorem State.setResultAndFlag_cfg (s : State) (x : Index) (r f : Byte) : (s.setResultAndFlag x r f).cfg = s.cfg := rfl
@[simp] theorem State.setResultAndFlag_i (s : State) (x : Index) (r f : Byte) : (s.setResultAndFlag x r f).i = s.i := rfl
@[simp] theorem State.setResultAndFlag_pc (s : State) (x : Index) (r f : Byte) : (s.setResultAndFlag x r f).pc = s.pc := rfl
@[simp] theorem State.setResultAndFlag_stack (s : State) (x : Index) (r f : Byte) : (s.setResultAndFlag x r f).stack = s.stack := rfl
@[simp] theorem State.setResultAndFlag_dt (s : State) (x : Index) (r f : Byte) : (s.setResultAndFlag x r f).dt = s.dt := rfl
@[simp] theorem State.setResultAndFlag_st (s : State) (x : Index) (r f : Byte) : (s.setResultAndFlag x r f).st = s.st := rfl
@[simp] theorem State.setResultAndFlag_disp (s : State) (x : Index) (r f : Byte) : (s.setResultAndFlag x r f).disp = s.disp := rfl
@[simp] theorem State.setResultAndFlag_dirty (s : State) (x : Index) (r f : Byte) : (s.setResultAndFlag x r f).dirty = s.dirty := rfl
@[simp] theorem State.setResultAndFlag_keys (s : State) (x : Index) (r f : Byte) : (s.setResultAndFlag x r f).keys = s.keys := rfl
@[simp] theorem State.setResultAndFlag_wait (s : State) (x : Index) (r f : Byte) : (s.setResultAndFlag x r f).wait = s.wait := rfl
@[simp] theorem State.setResultAndFlag_fault (s : State) (x : Index) (r f : Byte) : (s.setResultAndFlag x r f).fault = s.fault := rfl
@[simp] theorem State.setResultAndFlag_mem (s : State) (x : Index) (r f : Byte) : (s.setResultAndFlag x r f).mem = s.mem := rfl
@[simp] theorem State.setResultAndFlag_draws (s : State) (x : Index) (r f : Byte) : (s.setResultAndFlag x r f).draws = s.draws := rfl

/-! Conditional skips -/

theorem State.skipIf_eq (s : State) (c : Bool) : s.skipIf c = { s with pc := s.pc + if c then 2 else 0 } := by
  cases c <;> simp [State.skipIf, State.skip]

/-! Registers read after an update -/

theorem State.reg_setReg (s : State) (x r : Index) (b : Byte) :
    (s.setReg x b).reg r = if r = x then b else s.reg r := by
  simp only [State.reg, State.setReg, Fin.getElem_fin, Vector.getElem_set, Fin.ext_iff, eq_comm]

theorem State.reg_setVF (s : State) (r : Index) (b : Byte) :
    (s.setVF b).reg r = if r = vfIndex then b else s.reg r := State.reg_setReg s vfIndex r b

theorem State.reg_setResultAndFlag (s : State) (x r : Index) (result flag : Byte) :
    (s.setResultAndFlag x result flag).reg r = if r = vfIndex then flag else if r = x then result else s.reg r := by
  simp only [State.setResultAndFlag, State.reg_setVF, State.reg_setReg]

/-- The registers are read from `v` alone. -/
theorem State.reg_congr {s t : State} (h : t.v = s.v) (r : Index) : t.reg r = s.reg r := by
  simp only [State.reg, h]

/-- The bytes of memory are read from the configuration's font and `mem` alone. -/
theorem State.byteAt_congr {s t : State} (hc : t.cfg = s.cfg) (hm : t.mem = s.mem) (a : Nat) :
    t.byteAt a = s.byteAt a := by
  simp only [State.byteAt, hc, hm]

/-- Withdrawing the advance: the fatal condition taken after the default advance latches it in the state before the step. -/
theorem State.takeFatal_advance (s : State) (k : Fault) : s.advance.takeFatal k = s.latch k := by
  simp [State.takeFatal, State.advance, State.latch]

end Sys2Proof.Machine
end

