-- ==== Sys2Proof/Laws/Display.lean ====
section
/-! SUPPORT. What toggling one cell, and drawing one sprite pixel, does to every cell of the display. -/

namespace Sys2Proof.Machine

/-- A toggle flips its own cell, coordinates reduced into the buffer, and no other (R162). -/
theorem pixel_togglePixel (d : Display) (r c r' c' : Nat) :
    pixel (togglePixel d r c) r' c' =
      if r' % 32 = r % 32 ∧ c' % 64 = c % 64 then !pixel d r' c' else pixel d r' c' := by
  simp only [pixel, togglePixel, Vector.getElem_set]
  by_cases hr : r % 32 = r' % 32
  · by_cases hc : c % 64 = c' % 64
    · simp [hr, hc]
    · simp [hr, hc, Ne.symm hc]
  · simp [hr, Ne.symm hr]

theorem pixel_blankDisplay (r c : Nat) : pixel blankDisplay r c = false := by
  simp [pixel, blankDisplay]

/-- Two displays with the same cells are equal. -/
theorem display_ext {d e : Display} (h : ∀ r c, r < 32 → c < 64 → pixel d r c = pixel e r c) : d = e := by
  refine Vector.ext fun r hr => Vector.ext fun c hc => ?_
  have := h r c hr hc
  simpa only [pixel, Nat.mod_eq_of_lt hr, Nat.mod_eq_of_lt hc] using this

/-- One sprite pixel: a clear bit changes nothing, a set bit flips its cell and reports whether it was 1. -/
theorem drawPixel_set {b : Byte} {k : Nat} (h : spriteBit b k = true) (row col : Nat) (cv : Canvas) :
    drawPixel b row col k cv = (togglePixel cv.1 row (col + k), cv.2 || pixel cv.1 row (col + k)) := if_pos h

theorem drawPixel_clear {b : Byte} {k : Nat} (h : spriteBit b k = false) (row col : Nat) (cv : Canvas) :
    drawPixel b row col k cv = cv := if_neg (by simp [h])

end Sys2Proof.Machine
end

