-- ==== Sys2Proof/Laws/Encode.lean ====
section
/-! SUPPORT. The bits of the three encoded views, the fields the decoder reads back from them, and the word put together again from
its fields (spec/30_encoding.md R71). -/

namespace Sys2Proof

/-! Bits of each view -/

theorem getLsbD_encodeNNN (f : BitVec 4) (nnn : Addr12) (i : Nat) :
    (encodeNNN f nnn).getLsbD i = if i < 12 then nnn.getLsbD i else f.getLsbD (i - 12) :=
  BitVec.getLsbD_append (x := f) (y := nnn) (i := i)

theorem getLsbD_encodeXKK (f : BitVec 4) (x : Index) (kk : Byte) (i : Nat) :
    (encodeXKK f x kk).getLsbD i =
      if i < 8 then kk.getLsbD i else if i < 12 then (nibble x).getLsbD (i - 8) else f.getLsbD (i - 12) := by
  refine (BitVec.getLsbD_append (x := f ++ nibble x) (y := kk) (i := i)).trans ?_
  rw [BitVec.getLsbD_append]
  split_ifs <;> first | rfl | omega

theorem getLsbD_encodeXYN (f : BitVec 4) (x y n : Fin 16) (i : Nat) :
    (encodeXYN f x y n).getLsbD i =
      if i < 4 then (nibble n).getLsbD i else if i < 8 then (nibble y).getLsbD (i - 4)
      else if i < 12 then (nibble x).getLsbD (i - 8) else f.getLsbD (i - 12) := by
  refine (BitVec.getLsbD_append (x := f ++ nibble x ++ nibble y) (y := nibble n) (i := i)).trans ?_
  rw [BitVec.getLsbD_append, BitVec.getLsbD_append]
  split_ifs <;> first | rfl | omega

theorem getLsbD_wordOfBytes (high low : Byte) (i : Nat) :
    (wordOfBytes high low).getLsbD i = if i < 8 then low.getLsbD i else high.getLsbD (i - 8) :=
  BitVec.getLsbD_append (x := high) (y := low) (i := i)

/-- A field of a view: `k` bits from bit `lo` on are the bits of `v`. -/
theorem extract_eq {k : Nat} {w : Word} {lo : Nat} {v : BitVec k}
    (h : ∀ i, i < k → w.getLsbD (lo + i) = v.getLsbD i) : w.extractLsb' lo k = v := by
  refine BitVec.eq_of_getLsbD_eq fun i hi => ?_
  rw [BitVec.getLsbD_extractLsb', h i hi]
  simp [hi]

/-! Fields read back -/

theorem toFin_nibble (x : Fin 16) : (nibble x).toFin = x := rfl

theorem fieldFamily_encodeNNN (f : BitVec 4) (nnn : Addr12) : fieldFamily (encodeNNN f nnn) = f.toFin := by
  rw [fieldFamily, extract_eq fun i hi => ?_]
  rw [getLsbD_encodeNNN, if_neg (by omega), Nat.add_sub_cancel_left]

theorem fieldNNN_encodeNNN (f : BitVec 4) (nnn : Addr12) : fieldNNN (encodeNNN f nnn) = nnn := by
  rw [fieldNNN, extract_eq fun i hi => ?_]
  rw [getLsbD_encodeNNN, if_pos (by omega), Nat.zero_add]

theorem fieldFamily_encodeXKK (f : BitVec 4) (x : Index) (kk : Byte) : fieldFamily (encodeXKK f x kk) = f.toFin := by
  rw [fieldFamily, extract_eq fun i hi => ?_]
  rw [getLsbD_encodeXKK, if_neg (by omega), if_neg (by omega), Nat.add_sub_cancel_left]

theorem fieldX_encodeXKK (f : BitVec 4) (x : Index) (kk : Byte) : fieldX (encodeXKK f x kk) = x := by
  rw [fieldX, extract_eq (v := nibble x) fun i hi => ?_, toFin_nibble]
  rw [getLsbD_encodeXKK, if_neg (by omega), if_pos (by omega), Nat.add_sub_cancel_left]

theorem fieldKK_encodeXKK (f : BitVec 4) (x : Index) (kk : Byte) : fieldKK (encodeXKK f x kk) = kk := by
  rw [fieldKK, extract_eq fun i hi => ?_]
  rw [getLsbD_encodeXKK, if_pos (by omega), Nat.zero_add]

theorem fieldFamily_encodeXYN (f : BitVec 4) (x y n : Fin 16) : fieldFamily (encodeXYN f x y n) = f.toFin := by
  rw [fieldFamily, extract_eq fun i hi => ?_]
  rw [getLsbD_encodeXYN, if_neg (by omega), if_neg (by omega), if_neg (by omega), Nat.add_sub_cancel_left]

theorem fieldX_encodeXYN (f : BitVec 4) (x y n : Fin 16) : fieldX (encodeXYN f x y n) = x := by
  rw [fieldX, extract_eq (v := nibble x) fun i hi => ?_, toFin_nibble]
  rw [getLsbD_encodeXYN, if_neg (by omega), if_neg (by omega), if_pos (by omega), Nat.add_sub_cancel_left]

theorem fieldY_encodeXYN (f : BitVec 4) (x y n : Fin 16) : fieldY (encodeXYN f x y n) = y := by
  rw [fieldY, extract_eq (v := nibble y) fun i hi => ?_, toFin_nibble]
  rw [getLsbD_encodeXYN, if_neg (by omega), if_pos (by omega), Nat.add_sub_cancel_left]

theorem fieldN_encodeXYN (f : BitVec 4) (x y n : Fin 16) : fieldN (encodeXYN f x y n) = n := by
  rw [fieldN, extract_eq (v := nibble n) fun i hi => ?_, toFin_nibble]
  rw [getLsbD_encodeXYN, if_pos (by omega), Nat.zero_add]

/-! A word put together again from its fields -/

/-- A bit of a field of the word is the word's own bit. -/
theorem getLsbD_field (w : Word) {lo k i : Nat} (h₁ : lo ≤ i) (h₂ : i < lo + k) :
    (w.extractLsb' lo k).getLsbD (i - lo) = w.getLsbD i := by
  rw [BitVec.getLsbD_extractLsb', Nat.add_sub_cancel' h₁, decide_eq_true (by omega), Bool.true_and]

theorem encodeNNN_fields (w : Word) : encodeNNN (nibble (fieldFamily w)) (fieldNNN w) = w := by
  refine BitVec.eq_of_getLsbD_eq fun i hi => ?_
  rw [getLsbD_encodeNNN]
  split_ifs with h
  · exact getLsbD_field w (lo := 0) (by omega) (by omega)
  · exact getLsbD_field w (lo := 12) (by omega) (by omega)

theorem encodeXKK_fields (w : Word) : encodeXKK (nibble (fieldFamily w)) (fieldX w) (fieldKK w) = w := by
  refine BitVec.eq_of_getLsbD_eq fun i hi => ?_
  rw [getLsbD_encodeXKK]
  split_ifs with h₁ h₂
  · exact getLsbD_field w (lo := 0) (by omega) (by omega)
  · exact getLsbD_field w (lo := 8) (by omega) (by omega)
  · exact getLsbD_field w (lo := 12) (by omega) (by omega)

theorem encodeXYN_fields (w : Word) :
    encodeXYN (nibble (fieldFamily w)) (fieldX w) (fieldY w) (fieldN w) = w := by
  refine BitVec.eq_of_getLsbD_eq fun i hi => ?_
  rw [getLsbD_encodeXYN]
  split_ifs with h₁ h₂ h₃
  · exact getLsbD_field w (lo := 0) (by omega) (by omega)
  · exact getLsbD_field w (lo := 4) (by omega) (by omega)
  · exact getLsbD_field w (lo := 8) (by omega) (by omega)
  · exact getLsbD_field w (lo := 12) (by omega) (by omega)

/-! Bytes and words -/

theorem highByte_wordOfBytes (high low : Byte) : highByte (wordOfBytes high low) = high :=
  extract_eq fun i hi => by rw [getLsbD_wordOfBytes, if_neg (by omega), Nat.add_sub_cancel_left]

theorem lowByte_wordOfBytes (high low : Byte) : lowByte (wordOfBytes high low) = low :=
  extract_eq fun i hi => by rw [getLsbD_wordOfBytes, if_pos (by omega), Nat.zero_add]

theorem wordOfBytes_bytes (w : Word) : wordOfBytes (highByte w) (lowByte w) = w := by
  refine BitVec.eq_of_getLsbD_eq fun i hi => ?_
  rw [getLsbD_wordOfBytes]
  split_ifs with h
  · exact getLsbD_field w (lo := 0) (by omega) (by omega)
  · exact getLsbD_field w (lo := 8) (by omega) (by omega)

end Sys2Proof
end

