-- ==== Sys2Proof/Laws/Memory.lean ====
section
/-! SUPPORT. The memory laws: a read after a write, the canonical form is kept, and equal canonical memories are equal data. -/

namespace Sys2Proof.Machine

/-! What is listed after a write -/

theorem Memory.listed_cons (c : Nat) (w : Byte) (m : Memory) (b : Nat) :
    Memory.listed ((c, w) :: m) b = if c = b then some w else Memory.listed m b := rfl

theorem Memory.listed_filter_ne (m : Memory) (a b : Nat) :
    Memory.listed (m.filter (fun p => p.1 != a)) b = if b = a then none else Memory.listed m b := by
  induction m with
  | nil => simp [Memory.listed]
  | cons p m ih =>
    obtain ⟨c, v⟩ := p
    by_cases hc : c = a
    · simp only [List.filter_cons, hc, bne_self_eq_false, Bool.false_eq_true, if_false, ih, Memory.listed_cons]
      split_ifs with h₁ h₂ <;> simp_all
    · simp only [List.filter_cons, bne_iff_ne, ne_eq, hc, not_false_eq_true, if_true, Memory.listed_cons, ih]
      split_ifs <;> simp_all

theorem Memory.listed_insertCell (m : Memory) (a b : Nat) (v : Byte) :
    Memory.listed (Memory.insertCell a v m) b = if b = a then some v else Memory.listed m b := by
  induction m with
  | nil => simp [Memory.insertCell, Memory.listed_cons, eq_comm, Memory.listed]
  | cons p m ih =>
    obtain ⟨c, w⟩ := p
    rcases Nat.lt_trichotomy c a with h | h | h
    · simp only [Memory.insertCell, h, if_true, Memory.listed_cons, ih]
      split_ifs <;> first | rfl | omega
    · simp only [Memory.insertCell, h, Nat.lt_irrefl, if_false, if_true, Memory.listed_cons]
      split_ifs <;> first | rfl | omega
    · simp only [Memory.insertCell, if_neg (Nat.lt_asymm h), if_neg (Nat.ne_of_gt h), Memory.listed_cons]
      split_ifs <;> first | rfl | omega

/-- A read returns the byte last written to that address, and a write leaves every other address alone (R62). -/
theorem Memory.read_write (font : Font) (m : Memory) (a b : Nat) (v : Byte) :
    Memory.read font (Memory.write font m a v) b = if b = a then v else Memory.read font m b := by
  unfold Memory.read Memory.write
  split_ifs with h₁ h₂ h₂
  · simp [Memory.listed_filter_ne, h₂, h₁]
  · simp [Memory.listed_filter_ne, h₂]
  · simp [Memory.listed_insertCell, h₂]
  · simp [Memory.listed_insertCell, h₂]

/-! The canonical form -/

theorem Memory.wf_iff (font : Font) (m : Memory) :
    Memory.wf font m = true ↔ m.Pairwise (fun p q => p.1 < q.1) ∧
      ∀ p ∈ m, p.1 ≤ lastAddress ∧ p.2 ≠ Memory.background font p.1 := by
  simp [Memory.wf]

theorem Memory.wf_nil (font : Font) : Memory.wf font [] = true := by
  simp [Memory.wf_iff]

theorem Memory.wf_cons (font : Font) (p : Host.Cell) (m : Memory) :
    Memory.wf font (p :: m) = true ↔ (∀ q ∈ m, p.1 < q.1) ∧
      p.1 ≤ lastAddress ∧ p.2 ≠ Memory.background font p.1 ∧ Memory.wf font m = true := by
  simp only [Memory.wf_iff, List.pairwise_cons, List.forall_mem_cons]
  tauto

theorem Memory.mem_insertCell {m : Memory} {a : Nat} {v : Byte} {p : Host.Cell} (h : p ∈ Memory.insertCell a v m) :
    p = (a, v) ∨ p ∈ m := by
  induction m with
  | nil => simpa [Memory.insertCell] using h
  | cons q m ih =>
    obtain ⟨c, w⟩ := q
    simp only [Memory.insertCell] at h
    split_ifs at h with h₁ h₂
    · rcases List.mem_cons.mp h with h | h
      · exact .inr (h ▸ List.mem_cons_self)
      · exact (ih h).imp_right (List.mem_cons_of_mem _)
    · exact (List.mem_cons.mp h).imp_right (List.mem_cons_of_mem _)
    · exact List.mem_cons.mp h

theorem Memory.wf_insertCell {font : Font} {m : Memory} {a : Nat} {v : Byte} (ha : a ≤ lastAddress)
    (hv : v ≠ Memory.background font a) (h : Memory.wf font m = true) :
    Memory.wf font (Memory.insertCell a v m) = true := by
  induction m with
  | nil => simpa [Memory.insertCell, Memory.wf_cons, Memory.wf_nil] using ⟨ha, hv⟩
  | cons q m ih =>
    obtain ⟨c, w⟩ := q
    obtain ⟨hlt, hc, hw, hm⟩ := (Memory.wf_cons font (c, w) m).mp h
    simp only [Memory.insertCell]
    split_ifs with h₁ h₂
    · refine (Memory.wf_cons ..).mpr ⟨fun p hp => ?_, hc, hw, ih hm⟩
      rcases Memory.mem_insertCell hp with rfl | hp
      · exact h₁
      · exact hlt p hp
    · subst h₂
      exact (Memory.wf_cons ..).mpr ⟨hlt, ha, hv, hm⟩
    · refine (Memory.wf_cons ..).mpr ⟨fun p hp => ?_, ha, hv, h⟩
      rcases List.mem_cons.mp hp with rfl | hp
      · show a < c; omega
      · have : c < p.1 := hlt p hp
        show a < p.1; omega

/-- Every store inside the address space keeps the canonical form. -/
theorem Memory.wf_write {font : Font} {m : Memory} {a : Nat} (v : Byte) (ha : a ≤ lastAddress)
    (h : Memory.wf font m = true) : Memory.wf font (Memory.write font m a v) = true := by
  unfold Memory.write
  split_ifs with hv
  · obtain ⟨hp, hall⟩ := (Memory.wf_iff ..).mp h
    exact (Memory.wf_iff ..).mpr ⟨hp.filter _, fun p hp => hall p (List.mem_of_mem_filter hp)⟩
  · exact Memory.wf_insertCell ha hv h

theorem Memory.listed_eq_none {m : Memory} {a : Nat} (h : ∀ p ∈ m, a < p.1) : Memory.listed m a = none := by
  induction m with
  | nil => rfl
  | cons p m ih =>
    obtain ⟨c, v⟩ := p
    have hc : a < c := h (c, v) List.mem_cons_self
    rw [Memory.listed_cons, if_neg (by omega), ih fun q hq => h q (List.mem_cons_of_mem _ hq)]

theorem Memory.read_nil (font : Font) (a : Nat) : Memory.read font [] a = Memory.background font a := rfl

theorem Memory.read_head (font : Font) (a : Nat) (v : Byte) (m : Memory) : Memory.read font ((a, v) :: m) a = v := by
  simp [Memory.read, Memory.listed]

theorem Memory.read_below {font : Font} {m : Memory} {a : Nat} (h : ∀ p ∈ m, a < p.1) :
    Memory.read font m a = Memory.background font a := by
  simp [Memory.read, Memory.listed_eq_none h]

/-- Two canonical memories that read alike at every address are equal data. -/
theorem Memory.eq_of_read_eq {font : Font} {m₁ m₂ : Memory} (h₁ : Memory.wf font m₁ = true)
    (h₂ : Memory.wf font m₂ = true) (h : ∀ a, Memory.read font m₁ a = Memory.read font m₂ a) : m₁ = m₂ := by
  induction m₁ generalizing m₂ with
  | nil =>
    cases m₂ with
    | nil => rfl
    | cons q m₂ =>
      obtain ⟨b, w⟩ := q
      have := ((Memory.wf_cons ..).mp h₂).2.2.1
      exact absurd (by simpa [Memory.read_nil, Memory.read_head] using (h b).symm) this
  | cons p m₁ ih =>
    obtain ⟨a, v⟩ := p
    obtain ⟨hp, _, hv, hm₁⟩ := (Memory.wf_cons ..).mp h₁
    cases m₂ with
    | nil => exact absurd (by simpa [Memory.read_nil, Memory.read_head] using h a) hv
    | cons q m₂ =>
      obtain ⟨b, w⟩ := q
      obtain ⟨hq, _, hw, hm₂⟩ := (Memory.wf_cons ..).mp h₂
      have hab : a = b := by
        by_contra hne
        rcases Nat.lt_or_gt_of_ne hne with hlt | hlt
        · refine hv ?_
          have := h a
          rw [Memory.read_head, Memory.read_below] at this
          · exact this
          · intro p hp
            rcases List.mem_cons.mp hp with rfl | hp
            · exact hlt
            · exact hlt.trans (hq p hp)
        · refine hw ?_
          have := h b
          rw [Memory.read_head, Memory.read_below] at this
          · exact this.symm
          · intro r hr
            rcases List.mem_cons.mp hr with rfl | hr
            · exact hlt
            · exact Nat.lt_trans hlt (hp r hr)
      subst hab
      have hvw : v = w := by simpa [Memory.read_head] using h a
      subst hvw
      have : m₁ = m₂ := ih hm₁ hm₂ fun c => by
        by_cases hc : a = c
        · subst hc
          rw [Memory.read_below hp, Memory.read_below hq]
        · simpa [Memory.read, Memory.listed, hc] using h c
      rw [this]

/-! The same laws of the state's memory -/

theorem State.byteAt_setByte (s : State) (a c : Nat) (b : Byte) :
    (s.setByte a b).byteAt c = if c = a then b else s.byteAt c := Memory.read_write ..

theorem State.byteAt_new (cfg : Cfg) (a : Nat) : (State.new cfg).byteAt a = Memory.background cfg.font a := rfl

end Sys2Proof.Machine
end

