-- ==== Sys2Proof/Laws/Ops.lean ====
section
/-! SUPPORT. One lemma per shared operation that says all it can do: checked reads and writes, runs of bytes, the register block
load, the stack, the key scan, the timers and the end of an instruction that may raise. -/

namespace Sys2Proof.Machine

/-! Checked accesses of one byte (R55) -/

theorem State.memRead_inside {s : State} {a : Nat} (h : a ≤ lastAddress) : s.memRead a = .ok (s.byteAt a) := if_pos h

theorem State.memRead_beyond {s : State} {a : Nat} (h : lastAddress < a) : s.memRead a = .error .addressOutOfRange :=
  if_neg (Nat.not_le.mpr h)

theorem State.memWrite_inside {s : State} {a : Nat} (b : Byte) (h : a ≤ lastAddress) :
    s.memWrite a b = .ok (s.setByte a b) := if_pos h

theorem State.memWrite_beyond {s : State} {a : Nat} (b : Byte) (h : lastAddress < a) :
    s.memWrite a b = .error .addressOutOfRange := if_neg (Nat.not_le.mpr h)

/-! Runs of bytes (R51, R56) -/

theorem State.readBytes_inside (s : State) (a n : Nat) (h : a + n ≤ lastAddress + 1 ∨ n = 0) :
    s.readBytes a n = .ok ((List.range n).map fun j => s.byteAt (a + j)) := by
  induction n generalizing a with
  | zero => rfl
  | succ n ih =>
    have ha : a ≤ lastAddress := by omega
    rw [State.readBytes, State.memRead_inside ha, ih (a + 1) (by omega)]
    simp [List.range_succ_eq_map, Except.map, Function.comp_def, Nat.add_comm, Nat.add_left_comm]

theorem State.readBytes_beyond (s : State) (a n : Nat) (hn : 0 < n) (h : lastAddress + 1 < a + n) :
    s.readBytes a n = .error .addressOutOfRange := by
  induction n generalizing a with
  | zero => omega
  | succ n ih =>
    by_cases ha : a ≤ lastAddress
    · rw [State.readBytes, State.memRead_inside ha, ih (a + 1) (by omega) (by omega)]
      rfl
    · rw [State.readBytes, State.memRead_beyond (by omega)]

theorem State.writeBytes_inside (s : State) (a : Nat) (bs : List Byte) (h : a + bs.length ≤ lastAddress + 1 ∨ bs = []) :
    s.writeBytes a bs = .ok (s.setBytes a bs) := by
  induction bs generalizing s a with
  | nil => rfl
  | cons b bs ih =>
    have h' : a + (bs.length + 1) ≤ lastAddress + 1 := by simpa using h
    rw [State.writeBytes, State.memWrite_inside b (by omega)]
    exact ih (s.setByte a b) (a + 1) (.inl (by omega))

theorem State.writeBytes_beyond (s : State) (a : Nat) (bs : List Byte) (hn : bs ≠ [])
    (h : lastAddress + 1 < a + bs.length) : s.writeBytes a bs = .error .addressOutOfRange := by
  induction bs generalizing s a with
  | nil => exact absurd rfl hn
  | cons b bs ih =>
    have h' : lastAddress + 1 < a + (bs.length + 1) := by simpa using h
    by_cases ha : a ≤ lastAddress
    · rw [State.writeBytes, State.memWrite_inside b ha]
      refine ih (s.setByte a b) (a + 1) ?_ (by omega)
      rintro rfl
      simp at h'
      omega
    · rw [State.writeBytes, State.memWrite_beyond b (by omega)]

theorem State.setBytes_eq (s : State) (a : Nat) (bs : List Byte) : s.setBytes a bs = { s with mem := (s.setBytes a bs).mem } := by
  induction bs generalizing s a with
  | nil => rfl
  | cons b bs ih => exact ih (s.setByte a b) (a + 1)

/-- After a run of stores from `a`, byte k of the run stands at a + k and every other address reads as before. -/
theorem State.byteAt_setBytes (s : State) (a c : Nat) (bs : List Byte) :
    (s.setBytes a bs).byteAt c = if a ≤ c then (bs[c - a]?).getD (s.byteAt c) else s.byteAt c := by
  induction bs generalizing s a with
  | nil => simp [State.setBytes]
  | cons b bs ih =>
    rw [State.setBytes, ih, State.byteAt_setByte]
    rcases Nat.lt_trichotomy c a with h | rfl | h
    · rw [if_neg (by omega), if_neg (Nat.ne_of_lt h), if_neg (by omega)]
    · simp
    · rw [if_pos (by omega), if_neg (Nat.ne_of_gt h), if_pos (by omega), (by omega : c - a = c - (a + 1) + 1),
        List.getElem?_cons_succ]

theorem State.wf_setBytes (s : State) (a : Nat) (bs : List Byte) (h : a + bs.length ≤ lastAddress + 1)
    (hs : Memory.wf s.cfg.font s.mem = true) : Memory.wf s.cfg.font (s.setBytes a bs).mem = true := by
  induction bs generalizing s a with
  | nil => exact hs
  | cons b bs ih =>
    have h' : a + (bs.length + 1) ≤ lastAddress + 1 := by simpa using h
    exact ih (s.setByte a b) (a + 1) (by omega) (Memory.wf_write b (by omega) hs)

/-! The register blocks of Fx55 and Fx65 (R203, R204) -/

theorem State.length_regsUpTo (s : State) (x : Index) : (s.regsUpTo x).length = x.val + 1 := by
  simp [State.regsUpTo]

theorem State.getElem?_regsUpTo (s : State) (x r : Index) :
    (s.regsUpTo x)[r.val]? = if r ≤ x then some (s.reg r) else none := by
  have := r.isLt
  simp only [State.regsUpTo, List.getElem?_take, State.reg, Fin.le_def]
  split_ifs <;> first | omega | simp

/-- The block load: byte r - k of the list reaches register r, and registers outside the block keep their values. -/
theorem getElem_loadRegs (v : Vector Byte 16) (k : Nat) (bs : List Byte) (r : Nat) (hr : r < 16) :
    (loadRegs v k bs)[r] = if k ≤ r then (bs[r - k]?).getD v[r] else v[r] := by
  induction bs generalizing v k with
  | nil => simp [loadRegs]
  | cons b bs ih =>
    rw [loadRegs, ih, Vector.getElem_setIfInBounds]
    rcases Nat.lt_trichotomy r k with h | rfl | h
    · rw [if_neg (by omega), if_neg (Nat.ne_of_gt h), if_neg (by omega)]
    · simp
    · rw [if_pos (by omega), if_neg (Nat.ne_of_lt h), if_pos (by omega), (by omega : r - k = r - (k + 1) + 1),
        List.getElem?_cons_succ]

/-! The end of an instruction that may raise (R99, R224) -/

@[simp] theorem State.commit_ok (s t : State) : s.commit (.ok t) = .next t := rfl

@[simp] theorem State.commit_error (s : State) (k : Fault) : s.commit (.error k) = .next (s.takeFatal k) := rfl

theorem State.commit_cases {s t : State} {r : Except Fault State} (h : s.commit r = .next t) :
    r = .ok t ∨ ∃ k, r = .error k ∧ t = s.takeFatal k := by
  cases r with
  | ok u => exact .inl (by simpa using h)
  | error k => exact .inr ⟨k, rfl, by simpa [eq_comm] using h⟩

theorem State.commit_isNext (s : State) (r : Except Fault State) : ∃ t, s.commit r = .next t := by
  cases r <;> exact ⟨_, rfl⟩

/-! The call stack (R28) -/

theorem State.push_full {s : State} (a : Word) (h : s.sp = s.stackLimit) : s.push a = .error .stackOverflow := if_pos h

theorem State.push_room {s : State} (a : Word) (h : s.sp ≠ s.stackLimit) :
    s.push a = .ok { s with stack := s.stack ++ [a] } := if_neg h

theorem State.pop_empty {s : State} (h : s.sp = 0) : s.pop = .error .stackUnderflow := by
  have : s.stack = [] := List.eq_nil_of_length_eq_zero h
  simp [State.pop, this]

theorem State.pop_append {s : State} {rest : List Word} {a : Word} (h : s.stack = rest ++ [a]) :
    s.pop = .ok (a, { s with stack := rest }) := by
  simp [State.pop, h]

/-! Timers and keypad (R96, R182, R184) -/

theorem toNat_countDown (t : Byte) : (countDown t).toNat = t.toNat - 1 := by
  unfold countDown
  split_ifs with h
  · simp [h]
  · have : t.toNat ≠ 0 := fun h0 => h (BitVec.eq_of_toNat_eq h0)
    have := t.isLt
    simp [BitVec.toNat_sub]
    omega

theorem keyIndex_inside {b : Byte} {k : Index} (h : b.toNat = k.val) : keyIndex b = .ok k := by
  have := k.isLt
  simp [keyIndex, h]

theorem keyIndex_beyond {b : Byte} (h : 15 < b.toNat) : keyIndex b = .error .keyIndexOutOfRange :=
  dif_neg (by omega)

/-- The key scan takes the least key that is down. -/
theorem leastDown_eq_some {keys : Vector Bool 16} {k : Index} (hk : keys[k] = true) (hlt : ∀ j : Index, j < k → keys[j] = false) :
    leastDown keys = some k := by
  unfold leastDown
  rw [List.find?_eq_some_iff_getElem]
  refine ⟨hk, k.val, by simp, by simp, fun j hj => ?_⟩
  have hj16 : j < 16 := hj.trans k.isLt
  have := hlt ⟨j, hj16⟩ hj
  simpa using this

theorem leastDown_eq_none {keys : Vector Bool 16} (h : ∀ k : Index, keys[k] = false) : leastDown keys = none := by
  unfold leastDown
  rw [List.find?_eq_none]
  intro k _
  simp [h k]

/-- The scan finds a key that is down with none below it down, or no key is down. -/
theorem leastDown_cases (keys : Vector Bool 16) :
    (∃ k, leastDown keys = some k ∧ keys[k] = true ∧ ∀ j : Index, j < k → keys[j] = false) ∨
      (leastDown keys = none ∧ ∀ k : Index, keys[k] = false) := by
  by_cases h : ∃ k : Index, keys[k] = true
  · obtain ⟨k, hk, hlt⟩ := WellFounded.has_min (r := fun a b : Index => a < b) wellFounded_lt {k | keys[k] = true} h
    have hlt' : ∀ j : Index, j < k → keys[j] = false := fun j hj => by
      simpa using fun hj' => hlt j hj' hj
    exact .inl ⟨k, leastDown_eq_some hk hlt', hk, hlt'⟩
  · have h' : ∀ k : Index, keys[k] = false := fun k => by simpa using fun hk => h ⟨k, hk⟩
    exact .inr ⟨leastDown_eq_none h', h'⟩

end Sys2Proof.Machine
end

