-- ==== Sys2Proof/Laws/Step.lean ====
section
/-! SUPPORT. What a step can do: one lemma per case of the cycle driver, and one inversion lemma that lists the cases. -/

namespace Sys2Proof.Machine

/-- Every meaning answers a next state: each row of the opcode table has an effect, and a fatal condition is a state too. -/
theorem exec_isNext (i : Instr) (s : State) : ∃ t, exec i s = .next t := by
  cases i
  case ldVxK x =>
    simp only [exec, execLdVxK]
    cases leastDown s.keys <;> exact ⟨_, rfl⟩
  all_goals first | exact ⟨_, rfl⟩ | exact State.commit_isNext ..

/-- A halted machine's step (R91). -/
theorem cycle_halted {s : State} {k : Fault} (h : s.fault = some k) : cycle s = .next ⟨s, quiet (.halted k)⟩ := by
  simp only [cycle, h]

/-- A waiting machine's step (R92). -/
theorem cycle_waiting {s : State} {x : Index} (hf : s.fault = none) (hw : s.wait = some x) :
    cycle s = .next (cycleWaiting x s) := by
  simp only [cycle, hf, hw]

/-- A running machine's fetch beyond memory (R94). -/
theorem cycle_beyond {s : State} (h : s.Running) (hpc : lastFetchAddress < s.pc.toNat) :
    cycle s = .next ⟨s.latch .pcOutOfRange, quiet (.fatal .pcOutOfRange)⟩ := by
  simp only [cycle, h.1, h.2, cycleRunning, hpc, if_true]

/-- A running machine's step over a word that is no instruction (R100). -/
theorem cycle_rejected {s : State} {e : DecodeReject} (h : s.Running) (hpc : s.pc.toNat ≤ lastFetchAddress)
    (hd : decodeWord s.cfg.unlistedOps s.fetchWord = .error e) :
    cycle s = .next (cycleEnd s.fetchWord s.advance) := by
  simp only [cycle, h.1, h.2, cycleRunning, if_neg (Nat.not_lt.mpr hpc), executeWord, State.advance_cfg, hd]

/-- A running machine's step over an instruction (R93-R96). -/
theorem cycle_fetches {s t : State} {i : Instr} (h : s.Fetches i) (he : exec i s.advance = .next t) :
    cycle s = .next (cycleEnd s.fetchWord t) := by
  obtain ⟨⟨hf, hw⟩, hpc, hd⟩ := h
  simp only [cycle, hf, hw, cycleRunning, if_neg (Nat.not_lt.mpr hpc), executeWord, State.advance_cfg, hd, he]

/-- The state at the end of a step that reached `t`: ticked, or left as it is with its fatal condition (R96, R224). -/
theorem cycleEnd_state (w : Word) (t : State) : (cycleEnd w t).state = if t.fault = none then t.tick else t := by
  unfold cycleEnd
  cases h : t.fault <;> simp

/-- The step is the state of the cycle. -/
theorem step_of_cycle {s : State} {c : Cycled} (h : cycle s = .next c) : step s = .next c.state := by
  simp only [step, stateOf, h]

/-- The one list of what a step can do: halted, blocked, resumed, a fetch beyond memory, a word that is no instruction, or an
instruction run at the advanced PC and then the tick, or its fatal condition. -/
theorem step_cases {s t : State} (h : step s = .next t) :
    (∃ k, s.fault = some k ∧ t = s) ∨
    (∃ x, s.fault = none ∧ s.wait = some x ∧
      ((leastDown s.keys = none ∧ t = s) ∨
        ∃ k, leastDown s.keys = some k ∧ t = ({ s.setReg x (BitVec.ofNat 8 k.val) with wait := none } : State).tick)) ∨
    (s.Running ∧ lastFetchAddress < s.pc.toNat ∧ t = s.latch .pcOutOfRange) ∨
    (s.Running ∧ s.pc.toNat ≤ lastFetchAddress ∧ (∃ e, decodeWord s.cfg.unlistedOps s.fetchWord = .error e) ∧
      t = s.advance.tick) ∨
    (∃ i u, s.Fetches i ∧ exec i s.advance = .next u ∧ t = if u.fault = none then u.tick else u) := by
  have next_inj : ∀ {c : Cycled}, cycle s = .next c → t = c.state := fun hc => by
    simpa [step_of_cycle hc, eq_comm] using h
  cases hf : s.fault with
  | some k => exact .inl ⟨k, rfl, next_inj (cycle_halted hf)⟩
  | none =>
    cases hw : s.wait with
    | some x =>
      have ht := next_inj (cycle_waiting hf hw)
      refine .inr (.inl ⟨x, rfl, rfl, ?_⟩)
      cases hk : leastDown s.keys with
      | none => exact .inl ⟨rfl, by simpa [cycleWaiting, hk] using ht⟩
      | some k => exact .inr ⟨k, rfl, by simpa [cycleWaiting, hk] using ht⟩
    | none =>
      by_cases hpc : lastFetchAddress < s.pc.toNat
      · exact .inr (.inr (.inl ⟨⟨hf, hw⟩, hpc, next_inj (cycle_beyond ⟨hf, hw⟩ hpc)⟩))
      · cases hd : decodeWord s.cfg.unlistedOps s.fetchWord with
        | error e =>
          have ht := next_inj (cycle_rejected ⟨hf, hw⟩ (Nat.not_lt.mp hpc) hd)
          rw [cycleEnd_state, if_pos (by simpa using hf)] at ht
          exact .inr (.inr (.inr (.inl ⟨⟨hf, hw⟩, Nat.not_lt.mp hpc, ⟨e, rfl⟩, ht⟩)))
        | ok i =>
          obtain ⟨u, hu⟩ := exec_isNext i s.advance
          have hfetch : s.Fetches i := ⟨⟨hf, hw⟩, Nat.not_lt.mp hpc, hd⟩
          exact .inr (.inr (.inr (.inr ⟨i, u, hfetch, hu, by
            rw [next_inj (cycle_fetches hfetch hu), cycleEnd_state]⟩)))

/-- A step fetches at most one instruction. -/
theorem State.Fetches.unique {s : State} {i j : Instr} (hi : s.Fetches i) (hj : s.Fetches j) : i = j := by
  simpa using hi.2.2.symm.trans hj.2.2

end Sys2Proof.Machine
end

