-- ==== Sys2Proof/Laws/Exec.lean ====
section
/-! SUPPORT. What an instruction can do, said once for all: its whole effect or a fatal condition, and the parts of the state no
effect writes. -/

namespace Sys2Proof.Machine

/-- The whole effect of an instruction before it is committed, or the fatal condition it raises (the pseudocode of its rule). -/
def effect (i : Instr) (s : State) : Except Fault State :=
  match i with
  | .sys _ => .ok s
  | .cls => .ok { s with disp := blankDisplay, dirty := true }
  | .ret => s.pop.map fun p => p.2.jump p.1
  | .jp nnn => .ok (s.jump (addrWord nnn))
  | .call nnn => (s.push s.pc).map fun t => t.jump (addrWord nnn)
  | .seImm x kk => .ok (s.skipIf (s.reg x == kk))
  | .sneImm x kk => .ok (s.skipIf (s.reg x != kk))
  | .seReg x y => .ok (s.skipIf (s.reg x == s.reg y))
  | .ldImm x kk => .ok (s.setReg x kk)
  | .addImm x kk => .ok (s.setReg x (addSaturate (s.reg x) kk))
  | .ldReg x y => .ok (s.setReg x (s.reg y))
  | .orReg x y => .ok (s.setReg x (s.reg x ||| s.reg y))
  | .andReg x y => .ok (s.setReg x (s.reg x &&& s.reg y))
  | .xorReg x y => .ok (s.setReg x (s.reg x ^^^ s.reg y))
  | .addReg x y => .ok (s.setResultAndFlag x (addWrap (s.reg x) (s.reg y)) (carryFlag (s.reg x) (s.reg y)))
  | .subReg x y => .ok (s.setResultAndFlag x (subSaturate (s.reg x) (s.reg y)) (notBorrowFlag (s.reg x) (s.reg y)))
  | .shr x _ => .ok (s.setResultAndFlag x (halve (s.reg x)) (shiftRightFlag s.cfg.shiftFlagMode (s.reg x)))
  | .subn x y =>
    .ok (s.setResultAndFlag x (subReverse s.cfg.subnUnderflow (s.reg x) (s.reg y)) (notBorrowFlag (s.reg y) (s.reg x)))
  | .shl x y => .ok (s.setResultAndFlag x (double (s.reg y)) (shiftLeftFlag s.cfg.shiftFlagMode (s.reg y)))
  | .sneReg x y => .ok (s.skipIf (s.reg x != s.reg y))
  | .ldI nnn => .ok (s.setI (addrWord nnn))
  | .jpV0 nnn => .ok (s.jump (addrWord nnn + byteWord (s.reg 0)))
  | .rnd x kk => .ok ({ s with draws := s.draws + 1 }.randomInto x kk (Config.freeByte s.draws))
  | .drw x y n => (s.readBytes (s.indexed 0) n.val).map fun bytes => s.drawn x y bytes
  | .skp x => (keyIndex (s.reg x)).map fun k => s.skipIf (s.keyDown k)
  | .sknp x => (keyIndex (s.reg x)).map fun k => s.skipIf (!s.keyDown k)
  | .ldVxDT x => .ok (s.setReg x s.dt)
  | .ldVxK x =>
    match leastDown s.keys with
    | some k => .ok (s.setReg x (BitVec.ofNat 8 k.val))
    | none => .ok { s with wait := some x }
  | .ldDTVx x => .ok { s with dt := s.reg x }
  | .ldSTVx x => .ok { s with st := s.reg x }
  | .addIVx x => .ok (s.addI (byteWord (s.reg x)))
  | .ldFVx x => .ok (s.setI (fontAddress s.cfg.fontAddrMode (s.reg x)))
  | .ldBVx x => s.writeBytes (s.indexed 0) (decimalDigits (s.reg x))
  | .ldMemVx x =>
    (s.writeBytes (s.indexed 0) (s.regsUpTo x)).map fun t => t.addI (BitVec.ofNat 16 (x.val + 1))
  | .ldVxMem x =>
    (s.readBytes (s.indexed 0) (x.val + 1)).map fun bytes =>
      ({ s with v := loadRegs s.v 0 bytes } : State).addI (BitVec.ofNat 16 (x.val + 1))

/-- Every meaning commits its effect whole or takes its fatal condition (R99, R224). -/
theorem exec_eq_commit (i : Instr) (s : State) : exec i s = s.commit (effect i s) := by
  cases i
  case ldVxK x =>
    simp only [exec, execLdVxK, effect]
    cases leastDown s.keys <;> rfl
  all_goals rfl

/-- The one inversion lemma of `exec`. -/
theorem exec_cases {i : Instr} {s t : State} (h : exec i s = .next t) :
    effect i s = .ok t ∨ ∃ k, effect i s = .error k ∧ t = s.takeFatal k :=
  State.commit_cases (by rw [← exec_eq_commit]; exact h)

/-- An `Except` mapped to success came from a success. -/
theorem except_map_eq_ok {ε α β : Type} {e : Except ε α} {f : α → β} {b : β} (h : e.map f = .ok b) :
    ∃ a, e = .ok a ∧ f a = b := by
  cases e with
  | error _ => simp [Except.map] at h
  | ok a => exact ⟨a, rfl, by simpa [Except.map] using h⟩

theorem State.push_eq_ok {s t : State} {a : Word} (h : s.push a = .ok t) :
    s.sp ≠ s.stackLimit ∧ t = { s with stack := s.stack ++ [a] } := by
  unfold State.push at h
  split_ifs at h with hf
  exact ⟨hf, by simpa [eq_comm] using h⟩

theorem State.pop_eq_ok {s t : State} {a : Word} (h : s.pop = .ok (a, t)) :
    s.stack = t.stack ++ [a] ∧ t = { s with stack := t.stack } := by
  unfold State.pop at h
  split at h
  · cases h
  · next b hb =>
    obtain ⟨rfl, rfl⟩ : b = a ∧ { s with stack := s.stack.dropLast } = t := by simpa using h
    obtain ⟨ys, hys⟩ := List.getLast?_eq_some_iff.mp hb
    exact ⟨by simp [hys], rfl⟩

theorem State.writeBytes_eq_ok {s t : State} {a : Nat} {bs : List Byte} (h : s.writeBytes a bs = .ok t) :
    t = s.setBytes a bs ∧ (a + bs.length ≤ lastAddress + 1 ∨ bs = []) := by
  by_cases hb : a + bs.length ≤ lastAddress + 1 ∨ bs = []
  · rw [State.writeBytes_inside s a bs hb] at h
    exact ⟨by simpa [eq_comm] using h, hb⟩
  · rw [State.writeBytes_beyond s a bs (fun he => hb (.inr he)) (by omega)] at h
    cases h

/-- No effect writes the configuration, the keypad or the latched fault. -/
theorem effect_keeps {i : Instr} {s t : State} (h : effect i s = .ok t) :
    t.cfg = s.cfg ∧ t.keys = s.keys ∧ t.fault = s.fault := by
  cases i
  case ret =>
    obtain ⟨⟨a, u⟩, hp, rfl⟩ := except_map_eq_ok h
    rw [(State.pop_eq_ok hp).2]
    exact ⟨rfl, rfl, rfl⟩
  case call nnn =>
    obtain ⟨u, hp, rfl⟩ := except_map_eq_ok h
    rw [(State.push_eq_ok hp).2]
    exact ⟨rfl, rfl, rfl⟩
  case drw x y n =>
    obtain ⟨bytes, _, rfl⟩ := except_map_eq_ok h
    exact ⟨rfl, rfl, rfl⟩
  case ldVxK x =>
    simp only [effect] at h
    split at h <;> cases h <;> exact ⟨rfl, rfl, rfl⟩
  case ldBVx x =>
    rw [(State.writeBytes_eq_ok h).1, State.setBytes_eq]
    exact ⟨rfl, rfl, rfl⟩
  case ldMemVx x =>
    obtain ⟨u, hw, rfl⟩ := except_map_eq_ok h
    rw [(State.writeBytes_eq_ok hw).1, State.setBytes_eq]
    exact ⟨rfl, rfl, rfl⟩
  case ldVxMem x =>
    obtain ⟨bytes, _, rfl⟩ := except_map_eq_ok h
    exact ⟨rfl, rfl, rfl⟩
  case skp x =>
    obtain ⟨k, _, rfl⟩ := except_map_eq_ok h
    rw [State.skipIf_eq]
    exact ⟨rfl, rfl, rfl⟩
  case sknp x =>
    obtain ⟨k, _, rfl⟩ := except_map_eq_ok h
    rw [State.skipIf_eq]
    exact ⟨rfl, rfl, rfl⟩
  all_goals
    cases h
    first | exact ⟨rfl, rfl, rfl⟩ | (rw [State.skipIf_eq]; exact ⟨rfl, rfl, rfl⟩)

/-! The one list of what a fetching step can do, and of what makes an effect raise -/

/-- A fetching step: the whole effect at the advanced PC and the tick, or the condition it raises latched in the state before
(R96, R99, R224). -/
theorem fetch_step {s t : State} {i : Instr} (hf : s.Fetches i) (h : step s = .next t) :
    (∃ u, effect i s.advance = .ok u ∧ t = u.tick ∧ u.fault = none) ∨
      ∃ k, effect i s.advance = .error k ∧ t = s.latch k := by
  obtain ⟨u, hu⟩ := exec_isNext i s.advance
  have ht : t = if u.fault = none then u.tick else u := by
    have := step_of_cycle (cycle_fetches hf hu)
    rw [cycleEnd_state, h] at this
    simpa using this
  rcases exec_cases hu with he | ⟨k, he, rfl⟩
  · have : u.fault = none := by rw [(effect_keeps he).2.2]; exact hf.1.1
    rw [if_pos this] at ht
    exact .inl ⟨u, he, ht, this⟩
  · rw [if_neg (by simp), State.takeFatal_advance] at ht
    exact .inr ⟨k, he, ht⟩

/-- A running machine's step (R93-R100). -/
theorem running_step {s t : State} (hr : s.Running) (h : step s = .next t) :
    (lastFetchAddress < s.pc.toNat ∧ t = s.latch .pcOutOfRange) ∨
    (s.pc.toNat ≤ lastFetchAddress ∧ (∃ e, decodeWord s.cfg.unlistedOps s.fetchWord = .error e) ∧ t = s.advance.tick) ∨
    ∃ i, s.Fetches i ∧ ((∃ u, effect i s.advance = .ok u ∧ t = u.tick ∧ u.fault = none) ∨
      ∃ k, effect i s.advance = .error k ∧ t = s.latch k) := by
  rcases step_cases h with ⟨k, hk, _⟩ | ⟨x, _, hx, _⟩ | ⟨_, h1, rfl⟩ | ⟨_, h1, h2, rfl⟩ | ⟨i, u, hf, hu, _⟩
  · simp [hr.1] at hk
  · simp [hr.2] at hx
  · exact .inl ⟨h1, rfl⟩
  · exact .inr (.inl ⟨h1, h2, rfl⟩)
  · exact .inr (.inr ⟨i, hf, fetch_step hf h⟩)

theorem except_map_eq_error {ε α β : Type} {e : Except ε α} {f : α → β} {k : ε} : e.map f = .error k ↔ e = .error k := by
  cases e <;> simp [Except.map]

/-- Reading raises exactly when some byte lies beyond 0xFFF (R55). -/
theorem State.readBytes_eq_error {s : State} {a n : Nat} {k : Fault} :
    s.readBytes a n = .error k ↔ k = .addressOutOfRange ∧ 0 < n ∧ lastAddress + 1 < a + n := by
  by_cases h : a + n ≤ lastAddress + 1 ∨ n = 0
  · rw [State.readBytes_inside s a n h]; simp; omega
  · rw [State.readBytes_beyond s a n (by omega) (by omega)]; simp; constructor
    · rintro rfl; exact ⟨rfl, by omega, by omega⟩
    · rintro ⟨rfl, _⟩; rfl

/-- Writing raises exactly when some byte lies beyond 0xFFF (R55). -/
theorem State.writeBytes_eq_error {s : State} {a : Nat} {bs : List Byte} {k : Fault} :
    s.writeBytes a bs = .error k ↔ k = .addressOutOfRange ∧ bs ≠ [] ∧ lastAddress + 1 < a + bs.length := by
  by_cases h : a + bs.length ≤ lastAddress + 1 ∨ bs = []
  · rw [State.writeBytes_inside s a bs h]; simp; intro _ h2; simp [h2] at h; omega
  · rw [State.writeBytes_beyond s a bs (fun h' => h (.inr h')) (by omega)]; simp; constructor
    · rintro rfl; exact ⟨rfl, fun h' => h (.inr h'), by omega⟩
    · rintro ⟨rfl, _⟩; rfl

/-- A register's key index raises exactly when it is above 15 (R182). -/
theorem keyIndex_eq_error {b : Byte} {k : Fault} : keyIndex b = .error k ↔ k = .keyIndexOutOfRange ∧ 15 < b.toNat := by
  unfold keyIndex; split_ifs with h
  · simp; omega
  · simp; constructor
    · rintro rfl; exact ⟨rfl, by omega⟩
    · rintro ⟨rfl, _⟩; rfl

end Sys2Proof.Machine
end

