-- ==== Sys2Proof/Laws/PerInstr.lean ====
section
/-! SUPPORT. One lemma per instruction: its word carries the fixed bits of its row of spec/opcode_table.json, mask and match copied
from the table. -/

namespace Sys2Proof.Laws

/-- The `mask` and `match` columns of the instruction's row of spec/opcode_table.json. -/
def tableRow : Instr → Word × Word
  | .sys _ => (0xF000, 0x0000)
  | .cls => (0xFFFF, 0x00E0)
  | .ret => (0xFFFF, 0x00EE)
  | .jp _ => (0xF000, 0x1000)
  | .call _ => (0xF000, 0x2000)
  | .seImm _ _ => (0xF000, 0x3000)
  | .sneImm _ _ => (0xF000, 0x4000)
  | .seReg _ _ => (0xF00F, 0x5000)
  | .ldImm _ _ => (0xF000, 0x6000)
  | .addImm _ _ => (0xF000, 0x7000)
  | .ldReg _ _ => (0xF00F, 0x8000)
  | .orReg _ _ => (0xF00F, 0x8001)
  | .andReg _ _ => (0xF00F, 0x8002)
  | .xorReg _ _ => (0xF00F, 0x8003)
  | .addReg _ _ => (0xF00F, 0x8004)
  | .subReg _ _ => (0xF00F, 0x8005)
  | .shr _ _ => (0xF00F, 0x8006)
  | .subn _ _ => (0xF00F, 0x8007)
  | .shl _ _ => (0xF00F, 0x800E)
  | .sneReg _ _ => (0xF00F, 0x9000)
  | .ldI _ => (0xF000, 0xA000)
  | .jpV0 _ => (0xF000, 0xB000)
  | .rnd _ _ => (0xF000, 0xC000)
  | .drw _ _ _ => (0xF000, 0xD000)
  | .skp _ => (0xF0FF, 0xE09E)
  | .sknp _ => (0xF0FF, 0xE0A1)
  | .ldVxDT _ => (0xF0FF, 0xF007)
  | .ldVxK _ => (0xF0FF, 0xF00A)
  | .ldDTVx _ => (0xF0FF, 0xF015)
  | .ldSTVx _ => (0xF0FF, 0xF018)
  | .addIVx _ => (0xF0FF, 0xF01E)
  | .ldFVx _ => (0xF0FF, 0xF029)
  | .ldBVx _ => (0xF0FF, 0xF033)
  | .ldMemVx _ => (0xF0FF, 0xF055)
  | .ldVxMem _ => (0xF0FF, 0xF065)

/-- The encoded word matches its row under the row's mask. -/
def TableRow.Statement (i : Instr) : Prop := encode i &&& (tableRow i).1 = (tableRow i).2

/-- A masked word is known bit by bit: 16 bits, each fixed by the mask and the view. -/
theorem masked_nnn (f : BitVec 4) (nnn : Addr12) : encodeNNN f nnn &&& 0xF000 = encodeNNN f 0 := by
  refine BitVec.eq_of_getLsbD_eq fun i hi => ?_
  rw [BitVec.getLsbD_and, getLsbD_encodeNNN, getLsbD_encodeNNN]
  interval_cases i <;> simp

theorem masked_xkk (f : BitVec 4) (x : Index) (kk : Byte) : encodeXKK f x kk &&& 0xF000 = encodeXKK f 0 0 := by
  refine BitVec.eq_of_getLsbD_eq fun i hi => ?_
  rw [BitVec.getLsbD_and, getLsbD_encodeXKK, getLsbD_encodeXKK]
  interval_cases i <;> simp [nibble]

theorem masked_x (f : BitVec 4) (x : Index) (kk : Byte) : encodeXKK f x kk &&& 0xF0FF = encodeXKK f 0 kk := by
  refine BitVec.eq_of_getLsbD_eq fun i hi => ?_
  rw [BitVec.getLsbD_and, getLsbD_encodeXKK, getLsbD_encodeXKK]
  interval_cases i <;> simp [nibble]

theorem masked_xy (f : BitVec 4) (x y n : Fin 16) : encodeXYN f x y n &&& 0xF00F = encodeXYN f 0 0 n := by
  refine BitVec.eq_of_getLsbD_eq fun i hi => ?_
  rw [BitVec.getLsbD_and, getLsbD_encodeXYN, getLsbD_encodeXYN]
  interval_cases i <;> simp [nibble]

theorem masked_xyn (f : BitVec 4) (x y n : Fin 16) : encodeXYN f x y n &&& 0xF000 = encodeXYN f 0 0 0 := by
  refine BitVec.eq_of_getLsbD_eq fun i hi => ?_
  rw [BitVec.getLsbD_and, getLsbD_encodeXYN, getLsbD_encodeXYN]
  interval_cases i <;> simp [nibble]

theorem TableRow.sys (nnn : Addr12) : TableRow.Statement (.sys nnn) := (masked_nnn ..).trans rfl
theorem TableRow.cls : TableRow.Statement .cls := rfl
theorem TableRow.ret : TableRow.Statement .ret := rfl
theorem TableRow.jp (nnn : Addr12) : TableRow.Statement (.jp nnn) := (masked_nnn ..).trans rfl
theorem TableRow.call (nnn : Addr12) : TableRow.Statement (.call nnn) := (masked_nnn ..).trans rfl
theorem TableRow.seImm (x : Index) (kk : Byte) : TableRow.Statement (.seImm x kk) := (masked_xkk ..).trans rfl
theorem TableRow.sneImm (x : Index) (kk : Byte) : TableRow.Statement (.sneImm x kk) := (masked_xkk ..).trans rfl
theorem TableRow.seReg (x y : Index) : TableRow.Statement (.seReg x y) := (masked_xy ..).trans rfl
theorem TableRow.ldImm (x : Index) (kk : Byte) : TableRow.Statement (.ldImm x kk) := (masked_xkk ..).trans rfl
theorem TableRow.addImm (x : Index) (kk : Byte) : TableRow.Statement (.addImm x kk) := (masked_xkk ..).trans rfl
theorem TableRow.ldReg (x y : Index) : TableRow.Statement (.ldReg x y) := (masked_xy ..).trans rfl
theorem TableRow.orReg (x y : Index) : TableRow.Statement (.orReg x y) := (masked_xy ..).trans rfl
theorem TableRow.andReg (x y : Index) : TableRow.Statement (.andReg x y) := (masked_xy ..).trans rfl
theorem TableRow.xorReg (x y : Index) : TableRow.Statement (.xorReg x y) := (masked_xy ..).trans rfl
theorem TableRow.addReg (x y : Index) : TableRow.Statement (.addReg x y) := (masked_xy ..).trans rfl
theorem TableRow.subReg (x y : Index) : TableRow.Statement (.subReg x y) := (masked_xy ..).trans rfl
theorem TableRow.shr (x y : Index) : TableRow.Statement (.shr x y) := (masked_xy ..).trans rfl
theorem TableRow.subn (x y : Index) : TableRow.Statement (.subn x y) := (masked_xy ..).trans rfl
theorem TableRow.shl (x y : Index) : TableRow.Statement (.shl x y) := (masked_xy ..).trans rfl
theorem TableRow.sneReg (x y : Index) : TableRow.Statement (.sneReg x y) := (masked_xy ..).trans rfl
theorem TableRow.ldI (nnn : Addr12) : TableRow.Statement (.ldI nnn) := (masked_nnn ..).trans rfl
theorem TableRow.jpV0 (nnn : Addr12) : TableRow.Statement (.jpV0 nnn) := (masked_nnn ..).trans rfl
theorem TableRow.rnd (x : Index) (kk : Byte) : TableRow.Statement (.rnd x kk) := (masked_xkk ..).trans rfl
theorem TableRow.drw (x y : Index) (n : Fin 16) : TableRow.Statement (.drw x y n) := (masked_xyn ..).trans rfl
theorem TableRow.skp (x : Index) : TableRow.Statement (.skp x) := (masked_x ..).trans rfl
theorem TableRow.sknp (x : Index) : TableRow.Statement (.sknp x) := (masked_x ..).trans rfl
theorem TableRow.ldVxDT (x : Index) : TableRow.Statement (.ldVxDT x) := (masked_x ..).trans rfl
theorem TableRow.ldVxK (x : Index) : TableRow.Statement (.ldVxK x) := (masked_x ..).trans rfl
theorem TableRow.ldDTVx (x : Index) : TableRow.Statement (.ldDTVx x) := (masked_x ..).trans rfl
theorem TableRow.ldSTVx (x : Index) : TableRow.Statement (.ldSTVx x) := (masked_x ..).trans rfl
theorem TableRow.addIVx (x : Index) : TableRow.Statement (.addIVx x) := (masked_x ..).trans rfl
theorem TableRow.ldFVx (x : Index) : TableRow.Statement (.ldFVx x) := (masked_x ..).trans rfl
theorem TableRow.ldBVx (x : Index) : TableRow.Statement (.ldBVx x) := (masked_x ..).trans rfl
theorem TableRow.ldMemVx (x : Index) : TableRow.Statement (.ldMemVx x) := (masked_x ..).trans rfl
theorem TableRow.ldVxMem (x : Index) : TableRow.Statement (.ldVxMem x) := (masked_x ..).trans rfl

end Sys2Proof.Laws
end

