-- ==== Sys2Proof/Tests/Slice0.lean ====
section
/-! SUPPORT. The model's own tests: ill-formed terms refused, one word of every row decoded from the bits of R73's patterns, single
steps whose results stand in spec/95_test_vectors.md (its id in each comment), and a witness for the hypotheses of every statement. -/

namespace Sys2Proof.Tests

open Sys2Proof.Machine

/-! ## Well-formedness -/

theorem test_sys_00E0_is_ill_formed : (Instr.sys 0x0E0).wellFormed .standard = false := by decide
theorem test_sys_00EE_is_ill_formed : (Instr.sys 0x0EE).wellFormed .standard = false := by decide
theorem test_subn_is_ill_formed_when_invalid : (Instr.subn 1 2).wellFormed .invalid = false := by decide
theorem test_ldI_is_ill_formed_when_invalid : (Instr.ldI 0x2F0).wellFormed .invalid = false := by decide
theorem test_jpV0_is_ill_formed_when_invalid : (Instr.jpV0 0x300).wellFormed .invalid = false := by decide

/-! ## Decoding: the bits are written from R73's pattern for each row -/

theorem test_decode_family0 :
    decodeWord .standard 0b0000_0000_1110_0000 = .ok .cls ∧ decodeWord .standard 0b0000_0000_1110_1110 = .ok .ret ∧
    decodeWord .standard 0b0000_0001_0010_0011 = .ok (.sys 0x123) ∧ decodeWord .standard 0 = .ok (.sys 0) := by decide
theorem test_decode_jumps_and_call :
    decodeWord .standard 0b0001_1010_1011_1100 = .ok (.jp 0xABC) ∧
    decodeWord .standard 0b0010_0011_0000_0001 = .ok (.call 0x301) ∧
    decodeWord .standard 0b1011_0011_0000_0010 = .ok (.jpV0 0x302) := by decide
theorem test_decode_skips :
    decodeWord .standard 0b0011_0011_0100_0010 = .ok (.seImm 3 0x42) ∧
    decodeWord .standard 0b0100_0011_0100_0010 = .ok (.sneImm 3 0x42) ∧
    decodeWord .standard 0b0101_0001_0010_0000 = .ok (.seReg 1 2) ∧
    decodeWord .standard 0b1001_0001_0010_0000 = .ok (.sneReg 1 2) := by decide
theorem test_decode_immediates :
    decodeWord .standard 0b0110_1010_0010_1111 = .ok (.ldImm 0xA 0x2F) ∧
    decodeWord .standard 0b0111_0001_0000_1010 = .ok (.addImm 1 0x0A) ∧
    decodeWord .standard 0b1100_0011_0000_1111 = .ok (.rnd 3 0x0F) := by decide
theorem test_decode_family8_logic :
    decodeWord .standard 0b1000_0001_0010_0000 = .ok (.ldReg 1 2) ∧
    decodeWord .standard 0b1000_0001_0010_0001 = .ok (.orReg 1 2) ∧
    decodeWord .standard 0b1000_0001_0010_0010 = .ok (.andReg 1 2) ∧
    decodeWord .standard 0b1000_0001_0010_0011 = .ok (.xorReg 1 2) := by decide
theorem test_decode_family8_arithmetic :
    decodeWord .standard 0b1000_0001_0010_0100 = .ok (.addReg 1 2) ∧
    decodeWord .standard 0b1000_0001_0010_0101 = .ok (.subReg 1 2) ∧
    decodeWord .standard 0b1000_0001_0010_0110 = .ok (.shr 1 2) ∧
    decodeWord .standard 0b1000_0001_0010_0111 = .ok (.subn 1 2) ∧
    decodeWord .standard 0b1000_0001_0010_1110 = .ok (.shl 1 2) := by decide
theorem test_decode_index_and_draw :
    decodeWord .standard 0b1010_0010_1111_0000 = .ok (.ldI 0x2F0) ∧
    decodeWord .standard 0b1101_0010_0011_0101 = .ok (.drw 2 3 5) := by decide
theorem test_decode_familyE :
    decodeWord .standard 0b1110_0101_1001_1110 = .ok (.skp 5) ∧
    decodeWord .standard 0b1110_0101_1010_0001 = .ok (.sknp 5) := by decide
theorem test_decode_familyF_keys_and_timers :
    decodeWord .standard 0b1111_0010_0000_0111 = .ok (.ldVxDT 2) ∧
    decodeWord .standard 0b1111_0010_0000_1010 = .ok (.ldVxK 2) ∧
    decodeWord .standard 0b1111_0001_0001_0101 = .ok (.ldDTVx 1) ∧
    decodeWord .standard 0b1111_0001_0001_1000 = .ok (.ldSTVx 1) := by decide
theorem test_decode_familyF_index_and_memory :
    decodeWord .standard 0b1111_0010_0001_1110 = .ok (.addIVx 2) ∧
    decodeWord .standard 0b1111_0100_0010_1001 = .ok (.ldFVx 4) ∧
    decodeWord .standard 0b1111_0111_0011_0011 = .ok (.ldBVx 7) ∧
    decodeWord .standard 0b1111_0010_0101_0101 = .ok (.ldMemVx 2) ∧
    decodeWord .standard 0b1111_0010_0110_0101 = .ok (.ldVxMem 2) := by decide

/-- C8, A38, K6 and K19 of spec/95_test_vectors.md, and family 9 (R78). -/
theorem test_reserved_words_are_rejected :
    decodeWord .standard 0x5121 = .error .family5SubField ∧ decodeWord .standard 0x8128 = .error .family8SubField ∧
    decodeWord .standard 0x9121 = .error .family9SubField ∧ decodeWord .standard 0xE59F = .error .familyESubField ∧
    decodeWord .standard 0xF20B = .error .familyFSubField := by decide
/-- A37, F11 and M2. -/
theorem test_unlisted_words_are_rejected_when_invalid :
    decodeWord .invalid 0x8127 = .error .unlistedOperation ∧ decodeWord .invalid 0xA2F0 = .error .unlistedOperation ∧
    decodeWord .invalid 0xB300 = .error .unlistedOperation := by decide
theorem test_decode_reads_high_byte_first_and_keeps_the_rest :
    decode .standard [0x6A, 0x2F, 0x12] = .ok (.ldImm 0xA 0x2F, [0x12]) := by decide
theorem test_decode_rejects_truncated_bytes :
    decode .standard [] = .error .truncated ∧ decode .standard [0x6A] = .error .truncated := by decide

/-! ## Helpers -/

/-- Whether an outcome is a next state. -/
def isNext (o : Host.Outcome State Fault Refusal) : Bool :=
  match o with
  | .next _ => true
  | .fault _ => false
  | .refused _ => false

/-- The state a step from `s` leaves. -/
def nextOf (s : State) : State :=
  match step s with
  | .next t => t
  | .fault _ => s
  | .refused _ => s

/-- A step that answers a next state answers `nextOf`. -/
theorem step_nextOf {s : State} (h : isNext (step s) = true) : step s = .next (nextOf s) := by
  unfold nextOf
  cases hs : step s <;> simp_all [isNext]

/-- `s` with the word `w` where the next step fetches. -/
def holding (w : Nat) (s : State) : State := s.withFetchWord 16 w

/-- What one step from `s` with `w` at PC leaves, seen through `f`. -/
def seen {α : Type} (w : Nat) (s : State) (f : State → α) : Option α :=
  match step (holding w s) with
  | .next t => some (f t)
  | .fault _ => none
  | .refused _ => none

/-- The output record of that step. -/
def output (w : Nat) (s : State) : Option Out :=
  match cycle (holding w s) with
  | .next c => some c.out
  | .fault _ => none
  | .refused _ => none

/-- The reset state with V1 and V2 as given. -/
def regs12 (a b : Byte) : State := (State.reset.setReg 1 a).setReg 2 b

/-- V1 and VF. -/
def r1f (s : State) : Byte × Byte := (s.reg 1, s.reg 0xF)

/-- The reset state under SHIFT_FLAG_MODE = canonical, UNLISTED_OPS = standard and SUBN_UNDERFLOW = wrap. -/
def otherModes : Cfg := { Cfg.default with shiftFlagMode := .canonical, subnUnderflow := .wrap, fontAddrMode := .lowNibble }

def pcAndFault (s : State) : Word × Option Fault := (s.pc, s.fault)

/-! ## Single steps -/

/-- C1, C6. -/
theorem test_jp : seen 0x1234 State.reset pcAndFault = some (0x234, none) ∧
    seen 0x1200 { State.reset with pc := 0xFFE } pcAndFault = some (0x200, none) := by decide
/-- C7. -/
theorem test_sys : output 0x0123 { State.reset with dt := 1, st := 1 } =
      some ⟨.executed 0x123, some (.invalidOpcode 0x123), true⟩ ∧
    seen 0x0123 { State.reset with dt := 1, st := 1 } (fun t => (t.dt, t.st, t.pc)) = some (0, 0, 0x202) := by decide
/-- C8. -/
theorem test_unrecognized : output 0x5121 { State.reset with dt := 7 } =
      some ⟨.executed 0x5121, some (.invalidOpcode 0x5121), false⟩ ∧
    seen 0x5121 { State.reset with dt := 7 } (fun t => (t.dt, t.pc)) = some (6, 0x202) := by decide
/-- C5, C9. -/
theorem test_fetch_beyond_and_halt :
    isNext (step { State.reset with pc := 0xFFF }) = true ∧
    (nextOf { State.reset with pc := 0xFFF }).fault = some .pcOutOfRange ∧
    (nextOf { State.reset with fault := some .stackOverflow, dt := 5 }).dt = 5 := by decide
/-- F1, F3. -/
theorem test_ret : seen 0x00EE State.reset pcAndFault = some (0x200, some .stackUnderflow) ∧
    seen 0x00EE { State.reset with pc := 0x300, stack := [0x204] } (fun t => (t.pc, t.stack)) = some (0x204, []) := by decide
/-- F2, F4. -/
theorem test_call :
    seen 0x2300 { State.reset with pc := 0x202 } (fun t => (t.stack, t.pc, t.fault)) = some ([0x204], 0x300, none) ∧
    seen 0x2300 { State.reset with stack := List.replicate 16 0x202 } (fun t => (t.sp, pcAndFault t)) =
      some (16, 0x200, some .stackOverflow) := by decide
/-- F5, F6. -/
theorem test_call_stack_cap :
    seen 0x2300 { State.reset with stack := List.replicate 15 0x202, cfg := { Cfg.default with stackCap := .fifteen } }
      (fun t => t.fault) = some (some .stackOverflow) ∧
    seen 0x2300 { State.reset with stack := List.replicate 15 0x202 } (fun t => (t.sp, t.fault)) = some (16, none) := by decide
/-- F8, F9, F10. -/
theorem test_jpV0 : seen 0xB300 (State.reset.setReg 0 0x10) State.pc = some 0x310 ∧
    seen 0xBFFF (State.reset.setReg 0 0xFF) State.pc = some 0x10FE ∧
    seen 0xB500 ((State.reset.setReg 0 1).setReg 5 0x40) State.pc = some 0x501 := by decide
/-- F12, F13. -/
theorem test_seImm : seen 0x3342 (State.reset.setReg 3 0x42) State.pc = some 0x204 ∧
    seen 0x3343 (State.reset.setReg 3 0x42) State.pc = some 0x202 := by decide
/-- F14, F15. -/
theorem test_sneImm : seen 0x4342 (State.reset.setReg 3 0x42) State.pc = some 0x202 ∧
    seen 0x4300 (State.reset.setReg 3 0x42) State.pc = some 0x204 := by decide
/-- F16. -/
theorem test_seReg : seen 0x5110 (regs12 7 8) State.pc = some 0x204 := by decide
/-- F18, F19. -/
theorem test_sneReg : seen 0x9120 (regs12 7 8) State.pc = some 0x204 ∧ seen 0x9110 (regs12 7 8) State.pc = some 0x202 := by
  decide
/-- F20. -/
theorem test_skip_past_memory : seen 0x3000 { State.reset with pc := 0xFFC } pcAndFault = some (0x1000, none) := by decide
/-- A1, A2. -/
theorem test_ldImm : seen 0x6A2F State.reset (fun t => t.reg 0xA) = some 0x2F ∧
    seen 0x6FFF State.reset (fun t => t.reg 0xF) = some 0xFF := by decide
/-- A3, A4. -/
theorem test_addImm : seen 0x710A (State.reset.setReg 1 0xFA) (fun t => t.reg 1) = some 0xFF ∧
    seen 0x7104 ((State.reset.setReg 1 0xFA).setReg 0xF 0x77) r1f = some (0xFE, 0x77) := by decide
/-- A7, A8. -/
theorem test_ldReg : seen 0x8120 (regs12 0 9) (fun t => t.reg 1) = some 9 ∧
    seen 0x8F10 (regs12 3 0) (fun t => t.reg 0xF) = some 3 := by decide
/-- A9. -/
theorem test_orReg : seen 0x8121 ((regs12 0x0F 0xF0).setReg 0xF 0x55) r1f = some (0xFF, 0x55) := by decide
/-- A10. -/
theorem test_andReg : seen 0x8122 ((regs12 0x3C 0x0F).setReg 0xF 1) r1f = some (0x0C, 1) := by decide
/-- A11, A12. -/
theorem test_xorReg : seen 0x8123 (regs12 0x3C 0x0F) (fun t => t.reg 1) = some 0x33 ∧
    seen 0x8113 (regs12 0x3C 0) (fun t => t.reg 1) = some 0 := by decide
/-- A13, A14. -/
theorem test_addReg : seen 0x8124 (regs12 0xFF 1) r1f = some (0, 1) ∧ seen 0x8114 (regs12 0x80 0) r1f = some (0, 1) := by decide
/-- A15, A16. -/
theorem test_addReg_vf_operand : seen 0x8F14 ((regs12 3 0).setReg 0xF 5) r1f = some (3, 0) ∧
    seen 0x81F4 ((regs12 0xFF 0).setReg 0xF 1) r1f = some (0, 1) := by decide
/-- S7, S8. -/
theorem test_subReg : seen 0x8125 (regs12 10 20) r1f = some (0, 0) ∧ seen 0x8125 (regs12 20 10) r1f = some (10, 1) := by decide
/-- A17, A18. -/
theorem test_subReg_equal_and_vf : seen 0x8125 (regs12 5 5) r1f = some (0, 0) ∧
    seen 0x8F15 ((regs12 0x0A 0).setReg 0xF 0x14) (fun t => t.reg 0xF) = some 1 := by decide
/-- A21, A26. -/
theorem test_shr : seen 0x8106 (regs12 3 0) r1f = some (1, 0) ∧ seen 0x8126 (regs12 4 0xFF) r1f = some (2, 0) := by decide
/-- A22, A24 (canonical). -/
theorem test_shr_modes : seen 0x8106 (regs12 0x11 0) r1f = some (8, 1) ∧
    seen 0x8106 { regs12 0xFF 0 with cfg := otherModes } r1f = some (0x7F, 1) := by decide
/-- A28, A29. -/
theorem test_shl : seen 0x812E (regs12 0 0x81) r1f = some (2, 0) ∧ seen 0x812E (regs12 0 0x40) r1f = some (0x80, 0) := by decide
/-- A30, A32 (canonical). -/
theorem test_shl_canonical : seen 0x812E { regs12 0 0x80 with cfg := otherModes } r1f = some (0, 1) ∧
    seen 0x81FE { State.reset.setReg 0xF 0x90 with cfg := otherModes } r1f = some (0x20, 1) := by decide
/-- A34, A35. -/
theorem test_subn : seen 0x8127 (regs12 0x0A 0x1E) r1f = some (0x14, 1) ∧
    seen 0x8127 (regs12 0x1E 0x0A) r1f = some (0, 0) := by decide
/-- A35 (wrap), A37 (invalid). -/
theorem test_subn_modes : seen 0x8127 { regs12 0x1E 0x0A with cfg := otherModes } r1f = some (0xEC, 0) ∧
    seen 0x8127 { regs12 0x0A 0x1E with cfg := { Cfg.default with unlistedOps := .invalid } } r1f = some (0x0A, 0) := by decide
/-- A39, A41: the random byte is given, not drawn. -/
theorem test_rnd_masks_the_byte : (State.reset.randomInto 3 0x0F 0xA7).reg 3 = 0x07 ∧
    (State.reset.randomInto 3 0xFF 0x5A).reg 3 = 0x5A := by decide
/-- D1. -/
theorem test_cls : seen 0x00E0 { State.reset.setReg 0xF 0x33 with disp := togglePixel State.reset.disp 5 5 }
    (fun t => (pixel t.disp 5 5, t.dirty, t.reg 0xF)) = some (false, true, 0x33) := by decide

/-- D4 to D9: a sprite row FF, 80 80 or C0 at 0x300, drawn with V0 and V1 as given. -/
def drawing (v0 v1 : Byte) (bytes : List Byte) : State :=
  { ((State.reset.setReg 0 v0).setReg 1 v1).setBytes 0x300 bytes with i := 0x300 }

/-- D4: horizontal wrap, most significant bit first. -/
theorem test_drw_wraps_columns : seen 0xD011 (drawing 0x3E 0x1F [0xFF])
    (fun t => (pixel t.disp 31 61, pixel t.disp 31 62, pixel t.disp 31 5, pixel t.disp 31 6, t.reg 0xF)) =
      some (false, true, true, false, 0) := by decide
/-- D5: vertical wrap. -/
theorem test_drw_wraps_rows : seen 0xD012 (drawing 0 0x1F [0x80, 0x80])
    (fun t => (pixel t.disp 31 0, pixel t.disp 0 0, t.reg 0xF)) = some (true, true, 0) := by decide
/-- D7: a pixel from 1 to 0 is a collision. -/
theorem test_drw_collides : seen 0xD011 { drawing 0 0 [0xC0] with disp := togglePixel State.reset.disp 0 0 }
    (fun t => (pixel t.disp 0 0, pixel t.disp 0 1, t.reg 0xF)) = some (false, true, 1) := by decide
/-- D6, D10. -/
theorem test_drw_edges : seen 0xD010 (State.reset.setReg 0xF 1) (fun t => (t.reg 0xF, t.dirty)) = some (0, true) ∧
    seen 0xD013 { State.reset with i := 0xFFE } (fun t => (t.dirty, pcAndFault t)) =
      some (false, 0x200, some .addressOutOfRange) := by decide
/-- D14, D16. -/
theorem test_ldFVx : seen 0xF429 (State.reset.setReg 4 0x0F) State.i = some 0x004B ∧
    seen 0xF429 (State.reset.setReg 4 0xFF) State.i = some 0x04FB ∧
    seen 0xF429 { State.reset.setReg 4 0xFF with cfg := otherModes } State.i = some 0x004B := by decide
/-- K1, K2, K5. -/
theorem test_skp : seen 0xE59E ((State.reset.setReg 5 0xA).setKey 0xA true) State.pc = some 0x204 ∧
    seen 0xE59E (State.reset.setReg 5 0xA) State.pc = some 0x202 ∧
    seen 0xE59E (State.reset.setReg 5 0x10) pcAndFault = some (0x200, some .keyIndexOutOfRange) := by decide
/-- K3, K4. -/
theorem test_sknp : seen 0xE5A1 (State.reset.setReg 5 0xA) State.pc = some 0x204 ∧
    seen 0xE5A1 ((State.reset.setReg 5 0xA).setKey 0xA true) State.pc = some 0x202 := by decide
/-- K7. -/
theorem test_ldVxDT : seen 0xF207 { State.reset with dt := 3 } (fun t => (t.reg 2, t.dt)) = some (3, 2) := by decide
/-- K9. -/
theorem test_ldDTVx : seen 0xF115 (regs12 0x3C 0) State.dt = some 0x3B := by decide
/-- K11, K13. -/
theorem test_ldSTVx : output 0xF118 (regs12 1 0) = some ⟨.executed 0xF118, none, true⟩ ∧
    output 0xF118 { State.reset with st := 5 } = some ⟨.executed 0xF118, none, false⟩ := by decide
/-- K14, K15. -/
theorem test_ldVxK :
    seen 0xF20A ((State.reset.setKey 3 true).setKey 9 true) (fun t => (t.reg 2, t.wait, t.pc)) = some (3, none, 0x202) ∧
    seen 0xF20A { State.reset with dt := 5 } (fun t => (t.wait, t.pc, t.dt)) = some (some 2, 0x202, 4) := by decide
/-- K16, K17. -/
theorem test_key_wait : nextOf { State.reset with wait := some 2, dt := 4 } = { State.reset with wait := some 2, dt := 4 } ∧
    nextOf (({ State.reset with wait := some 2, dt := 4 } : State).setKey 7 true) =
      ((({ State.reset with dt := 3 } : State).setReg 2 7).setKey 7 true) := by decide
/-- M1. -/
theorem test_ldI : seen 0xA2F0 { State.reset with i := 0x1234 } State.i = some 0x02F0 := by decide
/-- M4, M5. -/
theorem test_addIVx : seen 0xF01E { State.reset.setReg 0 1 with i := 0xFFFF } (fun t => (t.i, t.fault)) = some (0, none) ∧
    seen 0xF01E { State.reset.setReg 0 1 with i := 0x0FFF } (fun t => (t.i, t.fault)) = some (0x1000, none) := by decide
/-- M6, M10. -/
theorem test_ldBVx : seen 0xF733 { State.reset.setReg 7 0x89 with i := 0x400 }
      (fun t => (t.byteAt 0x400, t.byteAt 0x401, t.byteAt 0x402, t.i)) = some (1, 3, 7, 0x400) ∧
    seen 0xF733 { State.reset.setReg 7 0xFF with i := 0xFFE } (fun t => (t.byteAt 0xFFE, pcAndFault t)) =
      some (0, 0x200, some .addressOutOfRange) := by decide
/-- M12, M15. -/
theorem test_ldMemVx : seen 0xF255 { (regs12 2 3).setReg 0 1 with i := 0x500 }
      (fun t => (t.byteAt 0x500, t.byteAt 0x501, t.byteAt 0x502, t.byteAt 0x503, t.i)) = some (1, 2, 3, 0, 0x503) ∧
    seen 0xFF55 { regs12 2 3 with i := 0xFF1 } (fun t => (t.byteAt 0xFF2, t.i, t.fault)) =
      some (0, 0xFF1, some .addressOutOfRange) := by decide
/-- M18, M19. -/
theorem test_ldVxMem : seen 0xF065 { State.reset.setBytes 0xFFF [0x5A] with i := 0xFFF } (fun t => (t.reg 0, t.i)) =
      some (0x5A, 0x1000) ∧
    seen 0xF065 State.reset (fun t => (t.reg 0, t.reg 1, t.i)) = some (0xF0, 0, 1) := by decide
/-- H5. -/
theorem test_new : (State.reset.byteAt 0, State.reset.byteAt 1, State.reset.byteAt 4) = (0xF0, 0x90, 0xF0) ∧
    (State.reset.byteAt 0x4B, State.reset.byteAt 0x4F, State.reset.byteAt 0x50) = (0xF0, 0x80, 0) := by decide
/-- H4. -/
theorem test_host_reset : ({ State.reset.setByte 0 0 with pc := 0x345, fault := some .stackOverflow } : State).hostReset =
    State.reset.setByte 0 0 ∧ ((State.reset.setByte 0 0).hostReset).byteAt 0 = 0 := by decide

/-! ## Witnesses: a concrete state and operands that meet the hypotheses of each statement that has any, clause by clause.
Statements not named here have no hypothesis (or only `s = State.new cfg`, which is its own witness). -/

/-- Fetching at the address where `holding` put the word. -/
theorem fetches_of {s : State} {i : Instr} (h : s.fault = none ∧ s.wait = none ∧ s.pc.toNat ≤ 0xFFE)
    (hd : decodeWord s.cfg.unlistedOps s.fetchWord = .ok i) : s.Fetches i := ⟨⟨h.1, h.2.1⟩, h.2.2, hd⟩

theorem witness_DecodeOfEncodedInstructionIsIt : (Instr.subn 1 2).wellFormed .standard = true ∧
    (Instr.sys 0x0E1).wellFormed .invalid = true ∧ (Instr.sys 0x0EF).wellFormed .standard = true := by decide
theorem witness_EncodeOfDecodedWordIsIt : decodeWord .standard 0xBFFF = .ok (.jpV0 0xFFF) ∧
    decodeWord .invalid 0x0000 = .ok (.sys 0) := by decide

/-- The last word of memory, a load: the clause of a completed step. -/
def atEnd : State := holding 0x6A2F { State.reset with pc := 0xFFE }
theorem witness_StepRunsTheDecodedInstruction_completes : atEnd.fault = none ∧ atEnd.wait = none ∧ atEnd.pc.toNat ≤ 0xFFE ∧
    (0x6A2F : Word) = atEnd.byteAt atEnd.pc.toNat ++ atEnd.byteAt (atEnd.pc.toNat + 1) ∧
    decodeWord atEnd.cfg.unlistedOps 0x6A2F = .ok (.ldImm 0xA 0x2F) ∧
    exec (.ldImm 0xA 0x2F) { atEnd with pc := atEnd.pc + 2 } = .next ({ atEnd with pc := atEnd.pc + 2 }.setReg 0xA 0x2F) ∧
    ({ atEnd with pc := atEnd.pc + 2 }.setReg 0xA 0x2F).fault = none := by
  refine ⟨?_, ?_, ?_, ?_, ?_, rfl, ?_⟩ <;> decide

/-- RET with nothing on the stack: the clause of a fatal condition. -/
def emptyReturn : State := holding 0x00EE State.reset
theorem witness_StepRunsTheDecodedInstruction_aborts : emptyReturn.Fetches .ret ∧
    exec .ret { emptyReturn with pc := emptyReturn.pc + 2 } =
      .next ({ emptyReturn with pc := emptyReturn.pc + 2 }.takeFatal .stackUnderflow) ∧
    ({ emptyReturn with pc := emptyReturn.pc + 2 }.takeFatal .stackUnderflow).fault = some .stackUnderflow :=
  ⟨fetches_of (by decide) (by decide), rfl, rfl⟩

theorem witness_HaltedMachineNeverChanges :
    ({ State.reset with fault := some .stackOverflow } : State).fault = some .stackOverflow := rfl

/-- The reset state waiting for a key into V2. -/
def waiting : State := { State.reset with wait := some 2 }
theorem witness_KeyWaitBlocks : waiting.fault = none ∧ waiting.wait = some 2 ∧ ∀ k, waiting.keyDown k = false := by decide
theorem witness_KeyWaitResumes : (waiting.setKey 15 true).wait = some 2 ∧ (waiting.setKey 15 true).keyDown 15 = true ∧
    (∀ j, j < 15 → (waiting.setKey 15 true).keyDown j = false) ∧ (waiting.setKey 0 true).keyDown 0 = true := by decide

/-- The first PC no instruction can be fetched from. -/
def beyond : State := { State.reset with pc := 0xFFF }
theorem witness_FetchBeyondMemoryLatchesPcOutOfRange : beyond.Running ∧ 0xFFE < beyond.pc.toNat := ⟨⟨rfl, rfl⟩, by decide⟩

/-- The last PC an instruction can be fetched from, over the zero word. -/
def zeroAtEnd : State := { State.reset with pc := 0xFFE }
theorem witness_UnrecognizedWordOnlyAdvancesAndTicks : zeroAtEnd.Running ∧ zeroAtEnd.pc.toNat ≤ 0xFFE ∧
    unrecognized zeroAtEnd.cfg.unlistedOps zeroAtEnd.fetchWord = true := ⟨⟨rfl, rfl⟩, by decide, by decide⟩

theorem witness_StepCommitsWholeOrLatchesOnly : atEnd.Running ∧ step atEnd = .next (nextOf atEnd) ∧
    emptyReturn.Running ∧ step emptyReturn = .next (nextOf emptyReturn) ∧ (nextOf atEnd).fault = none ∧
    (nextOf emptyReturn).fault = some .stackUnderflow :=
  ⟨⟨rfl, rfl⟩, step_nextOf (by decide), ⟨rfl, rfl⟩, step_nextOf (by decide), by decide, by decide⟩

/-- CALL with sixteen addresses held. -/
def fullCall : State := holding 0x2300 { State.reset with stack := List.replicate 16 0x202 }
/-- CALL with fifteen: the last that fits. -/
def lastCall : State := holding 0x2300 { State.reset with stack := List.replicate 15 0x202 }
/-- DRW of three rows at 0xFFE, one too many, and of two, which fit. -/
def drawOver : State := holding 0xD013 { State.reset with i := 0xFFE }
def drawFits : State := holding 0xD012 { State.reset with i := 0xFFE }
/-- Fx33 at 0xFFE and at 0xFFD. -/
def decimalOver : State := holding 0xF733 { State.reset.setReg 7 0xFF with i := 0xFFE }
def decimalFits : State := holding 0xF733 { State.reset.setReg 7 0xFF with i := 0xFFD }
/-- FF55 and FF65 at 0xFF1 and at 0xFF0. -/
def dumpOver : State := holding 0xFF55 { regs12 1 2 with i := 0xFF1 }
def dumpFits : State := holding 0xFF55 { regs12 1 2 with i := 0xFF0 }
def loadOver : State := holding 0xFF65 { State.reset with i := 0xFF1 }
def loadFits : State := holding 0xFF65 { State.reset with i := 0xFF0 }
/-- SKP with a register of 16 and of 15. -/
def keyOver : State := holding 0xE59E (State.reset.setReg 5 16)
def keyFits : State := holding 0xE59E (State.reset.setReg 5 15)

theorem witness_FatalConditions_stackOverflow : fullCall.Running ∧ FatalCause .stackOverflow fullCall ∧
    (nextOf fullCall).fault = some .stackOverflow ∧ (nextOf lastCall).fault = none ∧ lastCall.Fetches (.call 0x300) :=
  ⟨⟨rfl, rfl⟩, ⟨0x300, fetches_of (by decide) (by decide), by decide⟩, by decide, by decide, fetches_of (by decide) (by decide)⟩
theorem witness_FatalConditions_stackUnderflow : emptyReturn.Running ∧ FatalCause .stackUnderflow emptyReturn :=
  ⟨⟨rfl, rfl⟩, fetches_of (by decide) (by decide), by decide⟩
theorem witness_FatalConditions_pcOutOfRange : FatalCause .pcOutOfRange beyond ∧
    (nextOf beyond).fault = some .pcOutOfRange ∧ (nextOf zeroAtEnd).fault = none :=
  ⟨(by decide : (0xFFE : Nat) < beyond.pc.toNat), by decide, by decide⟩
theorem witness_FatalConditions_addressOutOfRange : FatalCause .addressOutOfRange drawOver ∧
    FatalCause .addressOutOfRange decimalOver ∧ FatalCause .addressOutOfRange dumpOver ∧
    FatalCause .addressOutOfRange loadOver :=
  ⟨.inl ⟨0, 1, 3, fetches_of (by decide) (by decide), by decide, by decide⟩,
   .inr (.inl ⟨7, fetches_of (by decide) (by decide), by decide⟩),
   .inr (.inr ⟨15, .inl (fetches_of (by decide) (by decide)), by decide⟩),
   .inr (.inr ⟨15, .inr (fetches_of (by decide) (by decide)), by decide⟩)⟩
theorem witness_FatalConditions_addressesThatFit : (nextOf drawFits).fault = none ∧ (nextOf decimalFits).fault = none ∧
    (nextOf dumpFits).fault = none ∧ (nextOf loadFits).fault = none := by decide
theorem witness_FatalConditions_keyIndexOutOfRange : FatalCause .keyIndexOutOfRange keyOver ∧
    (nextOf keyOver).fault = some .keyIndexOutOfRange ∧ (nextOf keyFits).fault = none :=
  ⟨⟨5, .inl (fetches_of (by decide) (by decide)), by decide⟩, by decide, by decide⟩

/-- Fx15 and Fx18 with V1 = 1, and a load while ST = 1. -/
def setDelay : State := holding 0xF115 (regs12 1 0)
def setSound : State := holding 0xF118 (regs12 1 0)
def soundEnds : State := { atEnd with dt := 1, st := 1 }
theorem witness_TimersTickOncePerCompletedStep : setDelay.Fetches (.ldDTVx 1) ∧ setSound.Fetches (.ldSTVx 1) ∧
    soundEnds.Fetches (.ldImm 0xA 0x2F) ∧ step setDelay = .next (nextOf setDelay) ∧ step setSound = .next (nextOf setSound) ∧
    step soundEnds = .next (nextOf soundEnds) ∧
    (nextOf setDelay).fault = none ∧ (nextOf setSound).fault = none ∧ (nextOf soundEnds).fault = none :=
  ⟨fetches_of (by decide) (by decide), fetches_of (by decide) (by decide), fetches_of (by decide) (by decide),
   step_nextOf (by decide), step_nextOf (by decide), step_nextOf (by decide), by decide, by decide, by decide⟩
theorem witness_ToneStopExactlyWhenTheTickZeroesSound :
    output 0xF118 (regs12 1 0) = some ⟨.executed 0xF118, none, true⟩ ∧
    output 0x6A2F { State.reset with st := 1 } = some ⟨.executed 0x6A2F, none, true⟩ ∧
    output 0x6A2F { State.reset with st := 2 } = some ⟨.executed 0x6A2F, none, false⟩ := by decide

/-- Memory listed and the stack full. -/
def loaded : State := { State.reset.setBytes 0x200 [0x12, 0x34] with stack := List.replicate 16 0x1000 }
/-- PC and a return address at their bounds. -/
def atBounds : State := { State.reset with stack := [0x1000], pc := 0x10FE }
theorem witness_StepKeepsMemoryCanonicalAndStackBounded : dumpFits.Inv ∧ step dumpFits = .next (nextOf dumpFits) ∧
    loaded.Inv ∧ step loaded = .next (nextOf loaded) :=
  ⟨⟨by decide, by decide⟩, step_nextOf (by decide), ⟨by decide, by decide⟩, step_nextOf (by decide)⟩
theorem witness_StepKeepsPcAndReturnAddressesBounded : atBounds.PcBounded ∧
    step atBounds = .next (nextOf atBounds) ∧ lastCall.pc.toNat ≤ 0x10FE ∧ step lastCall = .next (nextOf lastCall) :=
  ⟨⟨by decide, by simp [atBounds]⟩, step_nextOf (by decide), by decide, step_nextOf (by decide)⟩
theorem witness_HostOperationsKeepTheInvariant : loaded.Inv := ⟨by decide, by decide⟩
theorem witness_StepNeverWritesKeypadOrConfiguration :
    step (keyFits.setKey 15 true) = .next (nextOf (keyFits.setKey 15 true)) := step_nextOf (by decide)
theorem witness_OnlyDecimalStoreAndDumpWriteMemory : step decimalFits = .next (nextOf decimalFits) ∧
    (nextOf decimalFits).byteAt 0xFFF ≠ decimalFits.byteAt 0xFFF ∧ step dumpFits = .next (nextOf dumpFits) ∧
    (nextOf dumpFits).byteAt 0xFF1 ≠ dumpFits.byteAt 0xFF1 :=
  ⟨step_nextOf (by decide), by decide, step_nextOf (by decide), by decide⟩

def clearing : State := holding 0x00E0 State.reset
def drawNone : State := holding 0xD010 { State.reset with i := 0xFFFF }
theorem witness_OnlyClearAndDrawTouchTheDisplay : clearing.Fetches .cls ∧ step clearing = .next (nextOf clearing) ∧
    (nextOf clearing).dirty ≠ clearing.dirty ∧ (nextOf clearing).fault = none ∧ drawNone.Fetches (.drw 0 1 0) ∧
    step drawNone = .next (nextOf drawNone) ∧ (nextOf drawNone).dirty ≠ drawNone.dirty ∧ (nextOf drawNone).fault = none :=
  ⟨fetches_of (by decide) (by decide), step_nextOf (by decide), by decide, by decide,
   fetches_of (by decide) (by decide), step_nextOf (by decide), by decide, by decide⟩

def returning : State := holding 0x00EE { State.reset with stack := [0x204] }
def indexed : State := holding 0xA2F0 State.reset
def addIndex : State := holding 0xF21E (regs12 0 1)
def glyph : State := holding 0xF229 (regs12 0 1)
def waitBegins : State := holding 0xF20A State.reset
theorem witness_StackIndexAndWait_stack : step lastCall = .next (nextOf lastCall) ∧ (nextOf lastCall).stack ≠ lastCall.stack ∧
    step returning = .next (nextOf returning) ∧ (nextOf returning).stack ≠ returning.stack :=
  ⟨step_nextOf (by decide), by decide, step_nextOf (by decide), by decide⟩
theorem witness_StackIndexAndWait_index : (nextOf indexed).i ≠ indexed.i ∧ (nextOf addIndex).i ≠ addIndex.i ∧
    (nextOf glyph).i ≠ glyph.i ∧ (nextOf dumpFits).i ≠ dumpFits.i ∧ (nextOf loadFits).i ≠ loadFits.i := by decide
theorem witness_StackIndexAndWait_wait : waitBegins.wait = none ∧ step waitBegins = .next (nextOf waitBegins) ∧
    (nextOf waitBegins).wait = some 2 := ⟨by decide, step_nextOf (by decide), by decide⟩
theorem witness_StackIndexAndWait_waitEnds : (waiting.setKey 15 true).wait = some 2 ∧ (waiting.setKey 15 true).fault = none ∧
    step (waiting.setKey 15 true) = .next (nextOf (waiting.setKey 15 true)) ∧
    (nextOf (waiting.setKey 15 true)).wait = none ∧ step waiting = .next (nextOf waiting) ∧
    (nextOf waiting).wait = some 2 :=
  ⟨by decide, by decide, step_nextOf (by decide), by decide, step_nextOf (by decide), by decide⟩
theorem witness_RegistersChangeOnlyAsDestinations : loadFits.Fetches (.ldVxMem 15) ∧ atEnd.Fetches (.ldImm 0xA 0x2F) ∧
    step atEnd = .next (nextOf atEnd) ∧ (0xB : Index) ∉ destinations (.ldImm 0xA 0x2F) ∧
    (0x9 : Index) ∉ destinations (.ldImm 0xA 0x2F) ∧ (3 : Index) ∉ destinations (.ldVxMem 2) :=
  ⟨fetches_of (by decide) (by decide), fetches_of (by decide) (by decide), step_nextOf (by decide), by decide, by decide,
   by decide⟩
theorem witness_KeypadMattersOnlyToKeyInstructions_instruction : atEnd.wait = none ∧ atEnd.Fetches (.ldImm 0xA 0x2F) ∧
    (∀ i, atEnd.Fetches i → ¬ readsKeypad i) ∧ step atEnd = .next (nextOf atEnd) ∧ (atEnd.setKey 3 true).keys ≠ atEnd.keys := by
  have hf : atEnd.Fetches (.ldImm 0xA 0x2F) := fetches_of (by decide) (by decide)
  refine ⟨by decide, hf, fun i hi => ?_, step_nextOf (by decide), by decide⟩
  rw [hi.unique hf]
  simp [readsKeypad]

/-- A word the decoder rejects, 0xE59F, beside the key instructions of its family. -/
def rejected : State := holding 0xE59F State.reset
theorem witness_KeypadMattersOnlyToKeyInstructions_rejectedWord : rejected.wait = none ∧
    (∀ i, rejected.Fetches i → ¬ readsKeypad i) ∧ step rejected = .next (nextOf rejected) ∧
    (rejected.setKey 5 true).keys ≠ rejected.keys := by
  refine ⟨by decide, fun i hi => ?_, step_nextOf (by decide), by decide⟩
  have hd : decodeWord rejected.cfg.unlistedOps rejected.fetchWord = .error .familyESubField := by decide
  rw [hi.2.2] at hd
  cases hd

/-- The mode clauses of 8xy6, 8xyE, 8xy7 and Fx29: both settings of each parameter. -/
theorem witness_ModeClauses : Cfg.default.shiftFlagMode = .source ∧ otherModes.shiftFlagMode = .canonical ∧
    Cfg.default.subnUnderflow = .saturate ∧ otherModes.subnUnderflow = .wrap ∧
    Cfg.default.fontAddrMode = .times5 ∧ otherModes.fontAddrMode = .lowNibble ∧
    ((State.reset.setReg 4 15).reg 4).toNat ≤ 15 ∧ ¬ ((State.reset.setReg 4 16).reg 4).toNat ≤ 15 := by decide
theorem witness_RandomIsTheFreeDrawMasked : (0x0F : Byte).getLsbD 4 = false ∧ (0x0F : Byte).getLsbD 3 = true ∧
    (0 : Index) ≠ 3 := by decide
theorem witness_JumpsReplaceThePc_nextFetch : isNext (exec (.jp 0xFFF) State.reset) = true ∧
    (State.reset.jump 0xFFF).Running ∧ lastFetchAddress < (State.reset.jump 0xFFF).pc.toNat :=
  ⟨by decide, ⟨rfl, rfl⟩, by decide⟩
theorem witness_CallPushesReturnAddressOrOverflows : lastCall.sp ≠ lastCall.stackLimit ∧ fullCall.sp = fullCall.stackLimit ∧
    ({ lastCall with cfg := { Cfg.default with stackCap := .fifteen } } : State).sp =
      ({ lastCall with cfg := { Cfg.default with stackCap := .fifteen } } : State).stackLimit := by decide
theorem witness_ReturnPopsLastAddressOrUnderflows : returning.stack = [] ++ [0x204] ∧ emptyReturn.sp = 0 := by decide
theorem witness_RegisterSkips_reservedWords : ((0x5121 : Word) >>> 12 = 0x5 ∧ (0x5121 : Word) &&& 0xF ≠ 0) ∧
    ((0x912F : Word) >>> 12 = 0x9 ∧ (0x912F : Word) &&& 0xF ≠ 0) := by decide
theorem witness_KeySkipsTestTheKeyOrAbort : (keyFits.reg 5).toNat = (15 : Index).val ∧ 15 < (keyOver.reg 5).toNat := by decide
theorem witness_DrawTogglesExactlyThePixelsUnderTheSprite : drawFits.i.toNat + (2 : Fin 16).val ≤ 0x1000 ∧
    (0 : Fin 16) = 0 ∧ ¬ drawNone.i.toNat + (0 : Fin 16).val ≤ 0x1000 := by decide
/-- DRW of C0 at (0, 0) over one lit pixel: (0, 0) is under the sprite and lit, (0, 1) under it and clear, (0, 2) not under it. -/
def drawLit : State := { drawing 0 0 [0xC0] with disp := togglePixel State.reset.disp 0 0 }
theorem witness_DrawClauses : UnderSprite drawLit 0 1 1 0 0 ∧ pixel drawLit.disp 0 0 = true ∧ UnderSprite drawLit 0 1 1 0 1 ∧
    ¬ UnderSprite drawLit 0 1 1 1 0 ∧ ¬ UnderSprite drawNone 0 1 0 0 0 := by
  refine ⟨⟨0, 0, by decide⟩, by decide, ⟨0, 1, by decide⟩, ?_, ?_⟩
  · rintro ⟨j, k, hj, -, hr, -⟩
    obtain rfl : j = 0 := by simpa using hj
    revert hr; decide
  · rintro ⟨j, k, hj, -⟩
    exact absurd hj (Nat.not_lt_zero j)
theorem witness_DrawBeyondMemoryAborts : 0 < (3 : Fin 16).val ∧ 0xFFF < drawOver.i.toNat + (3 : Fin 16).val - 1 := by decide

/-- What an instruction answers, where it answers a next state. -/
def afterExec (i : Instr) (s : State) : State :=
  match exec i s with
  | .next t => t
  | .fault _ => s
  | .refused _ => s
theorem exec_afterExec {i : Instr} {s : State} (h : isNext (exec i s) = true) : exec i s = .next (afterExec i s) := by
  unfold afterExec
  cases hs : exec i s <;> simp_all [isNext]

theorem witness_DrawingTwiceRestoresTheDisplay : (0 : Index) ≠ vfIndex ∧ (1 : Index) ≠ vfIndex ∧
    drawLit.i.toNat + (1 : Fin 16).val ≤ 0x1000 ∧ exec (.drw 0 1 1) drawLit = .next (afterExec (.drw 0 1 1) drawLit) ∧
    exec (.drw 0 1 1) (afterExec (.drw 0 1 1) drawLit) =
      .next (afterExec (.drw 0 1 1) (afterExec (.drw 0 1 1) drawLit)) :=
  ⟨by decide, by decide, by decide, exec_afterExec (by decide), exec_afterExec (by decide)⟩
theorem witness_WaitForKeyTakesLeastKeyOrWaits : (State.reset.setKey 15 true).keyDown 15 = true ∧
    (∀ j, j < 15 → (State.reset.setKey 15 true).keyDown j = false) ∧ ∀ k, State.reset.keyDown k = false := by decide
theorem witness_DecimalStoreWritesThreeDigitsOrAborts : decimalFits.indexed 2 = 0xFFF ∧ decimalOver.indexed 2 = 0x1000 := by
  decide
theorem witness_RegisterDumpStoresAscendingOrAborts : dumpFits.indexed (15 : Index).val = 0xFFF ∧
    dumpOver.indexed (15 : Index).val = 0x1000 := by decide
theorem witness_RegisterLoadReadsAscendingOrAborts : loadFits.indexed (15 : Index).val = 0xFFF ∧
    loadOver.indexed (15 : Index).val = 0x1000 := by decide
theorem witness_DumpThenLoadRestoresTheRegisters :
    let t := afterExec (.ldMemVx 2) dumpFits
    let u := { (t.setReg 1 0x77) with i := dumpFits.i }
    dumpFits.indexed (2 : Index).val ≤ 0xFFF ∧ exec (.ldMemVx 2) dumpFits = .next t ∧ u.i = dumpFits.i ∧ u.cfg = t.cfg ∧
    u.mem = t.mem ∧ exec (.ldVxMem 2) u = .next (afterExec (.ldVxMem 2) u) :=
  ⟨by decide, exec_afterExec (by decide), rfl, rfl, rfl, exec_afterExec (by decide)⟩

/-- CALL 0x300 with RET at 0x300 and both timers running. -/
def callReturn : State := holding 0x2300 { State.reset.setBytes 0x300 [0x00, 0xEE] with dt := 5, st := 1 }
theorem witness_CallThenReturnComesBack : callReturn.Fetches (.call 0x300) ∧ callReturn.sp ≠ callReturn.stackLimit ∧
    (0x300 : Addr12).toNat ≤ 0xFFE ∧ callReturn.byteAt (0x300 : Addr12).toNat = 0x00 ∧
    callReturn.byteAt ((0x300 : Addr12).toNat + 1) = 0xEE ∧ step callReturn = .next (nextOf callReturn) ∧
    step (nextOf callReturn) = .next (nextOf (nextOf callReturn)) :=
  ⟨fetches_of (by decide) (by decide), by decide, by decide, by decide, by decide, step_nextOf (by decide),
   step_nextOf (by decide)⟩

/-- F155 at 0x200 with I = 0x202 and V0, V1 = 6A 77: it writes LD VA, 0x77 right behind itself. -/
def selfModify : State := holding 0xF155 { (State.reset.setReg 0 0x6A).setReg 1 0x77 with i := 0x202 }
theorem witness_StoredBytesAreFetchedByTheNextStep : selfModify.Fetches (.ldMemVx 1) ∧ 1 ≤ (1 : Index).val ∧
    selfModify.i = selfModify.pc + 2 ∧ selfModify.indexed (1 : Index).val ≤ 0xFFF ∧
    step selfModify = .next (nextOf selfModify) ∧
    decodeWord selfModify.cfg.unlistedOps (selfModify.reg 0 ++ selfModify.reg 1) = .ok (.ldImm 0xA 0x77) :=
  ⟨fetches_of (by decide) (by decide), by decide, by decide, by decide, step_nextOf (by decide), by decide⟩
theorem witness_LoadCopiesVerbatimOrFails : (List.replicate 3584 (0x12 : Byte)).length ≤ 3584 ∧
    3584 < (List.replicate 3585 (0x12 : Byte)).length := by
  simp only [List.length_replicate]; decide

end Sys2Proof.Tests
end

section
/-! PROOFS. Conditional skips against an immediate (spec/41_control_flow.md R110, R115, R116). -/

namespace Sys2Proof.Machine

/-- The skip of R110 as arithmetic: PC gains 2 modulo 65536 exactly when the condition holds. -/
theorem State.skipIf_pc_toNat (s : State) (c : Bool) :
    (s.skipIf c).pc.toNat = (s.pc.toNat + if c then 2 else 0) % 65536 := by
  rw [State.skipIf_eq, BitVec.toNat_add]
  cases c <;> rfl

/-- The frame of every conditional skip: PC is the only part it writes. -/
theorem State.skipIf_keepsAllBut_pc (s : State) (c : Bool) : KeepsAllBut [.pc] s (s.skipIf c) := by
  rw [State.skipIf_eq]
  exact {
    cfg := rfl
    keys := rfl
    regs := .inr fun _ => rfl
    index := .inr rfl
    pc := .inl List.mem_cons_self
    stack := .inr rfl
    delay := .inr rfl
    sound := .inr rfl
    display := .inr ⟨rfl, rfl⟩
    wait := .inr rfl
    fault := .inr rfl
    memory := .inr fun _ => rfl
    draws := .inr rfl }

/-- An instruction that is a conditional skip on a Boolean test of `p` moves PC on exactly when `p` holds, and writes nothing
else. -/
theorem exec_skipIf_spec {i : Instr} {s : State} {c : Bool} {p : Prop} [Decidable p]
    (hexec : exec i s = .next (s.skipIf c)) (hc : c = true ↔ p) :
    ∃ t, exec i s = .next t ∧ KeepsAllBut [.pc] s t ∧ t.pc.toNat = (s.pc.toNat + if p then 2 else 0) % 65536 :=
  ⟨s.skipIf c, hexec, s.skipIf_keepsAllBut_pc c, by simp only [State.skipIf_pc_toNat, hc]⟩

theorem exec_seImm (x : Index) (kk : Byte) (s : State) : exec (.seImm x kk) s = .next (s.skipIf (s.reg x == kk)) := rfl

theorem exec_sneImm (x : Index) (kk : Byte) (s : State) : exec (.sneImm x kk) s = .next (s.skipIf (s.reg x != kk)) := rfl

/-- Settles O39: both instructions are conditional skips, SE on `Vx == kk` and SNE on `Vx != kk`. -/
theorem immediateSkipsTestTheRegister : Obligations.ImmediateSkipsTestTheRegister := fun x kk s =>
  ⟨exec_skipIf_spec (exec_seImm x kk s) beq_iff_eq, exec_skipIf_spec (exec_sneImm x kk s) bne_iff_ne⟩

end Sys2Proof.Machine
end

section
/-! PROOFS. Register moves, addition and subtraction (spec/42_alu.md R130-R133, R137, R138). -/

namespace Sys2Proof.Machine

/-! The two shapes of a register write -/

/-- The frame of every register write: a new register file leaves every other part alone. -/
theorem keepsAllBut_regs (s : State) (v : Vector Byte 16) : KeepsAllBut [.regs] s { s with v := v } where
  cfg := rfl
  keys := rfl
  regs := .inl List.mem_cons_self
  index := .inr rfl
  pc := .inr rfl
  stack := .inr rfl
  delay := .inr rfl
  sound := .inr rfl
  display := .inr ⟨rfl, rfl⟩
  wait := .inr rfl
  fault := .inr rfl
  memory := .inr fun _ => rfl
  draws := .inr rfl

theorem State.writesResult_setReg (s : State) (x : Index) (b : Byte) : WritesResult s (s.setReg x b) x b :=
  ⟨fun r => s.reg_setReg x r b, keepsAllBut_regs s _⟩

/-- VF is written after Vx, so for x = F the flag remains (R22, R130). -/
theorem State.writesResultAndFlag_setResultAndFlag (s : State) (x : Index) (result flag : Byte) :
    WritesResultAndFlag s (s.setResultAndFlag x result flag) x result flag :=
  ⟨fun r => s.reg_setResultAndFlag x r result flag, keepsAllBut_regs s _⟩

/-! The results and the flags as arithmetic -/

theorem addSaturate_toNat (a b : Byte) : (addSaturate a b).toNat = min (a.toNat + b.toNat) 255 := by
  rw [addSaturate, BitVec.toNat_ofNat, Nat.mod_eq_of_lt (by omega)]

theorem addWrap_toNat (a b : Byte) : (addWrap a b).toNat = (a.toNat + b.toNat) % 256 := BitVec.toNat_ofNat _ _

/-- The truncated difference fits a byte, and truncation is saturation at 0 of the integer difference. -/
theorem subSaturate_toNat (a b : Byte) : ((subSaturate a b).toNat : Int) = max (a.toNat - b.toNat : Int) 0 := by
  have ha : a.toNat < 256 := a.isLt
  rw [subSaturate, BitVec.toNat_ofNat, Nat.mod_eq_of_lt (by omega)]
  omega

theorem flagByte_decide_toNat (p : Prop) [Decidable p] : (flagByte (decide p)).toNat = if p then 1 else 0 := by
  by_cases hp : p <;> simp [flagByte, hp]

theorem carryFlag_toNat (a b : Byte) : (carryFlag a b).toNat = if a.toNat + b.toNat > 255 then 1 else 0 :=
  flagByte_decide_toNat _

theorem notBorrowFlag_toNat (a b : Byte) : (notBorrowFlag a b).toNat = if a.toNat > b.toNat then 1 else 0 :=
  flagByte_decide_toNat _

/-! What each instruction writes -/

theorem exec_ldImm (x : Index) (kk : Byte) (s : State) : exec (.ldImm x kk) s = .next (s.setReg x kk) := rfl

theorem exec_addImm (x : Index) (kk : Byte) (s : State) :
    exec (.addImm x kk) s = .next (s.setReg x (addSaturate (s.reg x) kk)) := rfl

theorem exec_ldReg (x y : Index) (s : State) : exec (.ldReg x y) s = .next (s.setReg x (s.reg y)) := rfl

theorem exec_addReg (x y : Index) (s : State) : exec (.addReg x y) s =
    .next (s.setResultAndFlag x (addWrap (s.reg x) (s.reg y)) (carryFlag (s.reg x) (s.reg y))) := rfl

theorem exec_subReg (x y : Index) (s : State) : exec (.subReg x y) s =
    .next (s.setResultAndFlag x (subSaturate (s.reg x) (s.reg y)) (notBorrowFlag (s.reg x) (s.reg y))) := rfl

/-- Settles O26: the instruction is one register write, of `kk`. -/
theorem loadImmediateWritesKk : Obligations.LoadImmediateWritesKk := fun x kk s =>
  ⟨_, exec_ldImm x kk s, s.writesResult_setReg x kk⟩

/-- Settles O27: the instruction is one register write, of the saturated sum. -/
theorem addImmediateSaturates : Obligations.AddImmediateSaturates := by
  intro x kk s
  obtain ⟨hregs, hframe⟩ := s.writesResult_setReg x (addSaturate (s.reg x) kk)
  refine ⟨_, exec_addImm x kk s, fun r => ?_, hframe⟩
  rw [hregs, apply_ite BitVec.toNat, addSaturate_toNat]

/-- Settles O28: the instruction is one register write, of the old Vy. -/
theorem loadRegisterCopies : Obligations.LoadRegisterCopies := fun x y s =>
  ⟨_, exec_ldReg x y s, s.writesResult_setReg x (s.reg y)⟩

/-- Settles O30: the result is the wrapped sum and the flag the carry of the exact one. -/
theorem addRegisterWrapsAndCarries : Obligations.AddRegisterWrapsAndCarries := fun x y s =>
  ⟨_, exec_addReg x y s, _, _, s.writesResultAndFlag_setResultAndFlag x _ _, addWrap_toNat _ _, carryFlag_toNat _ _⟩

/-- Settles O31: the result is the saturated difference and the flag the strict comparison of the old registers. -/
theorem subRegisterSaturatesWithNotBorrow : Obligations.SubRegisterSaturatesWithNotBorrow := fun x y s =>
  ⟨_, exec_subReg x y s, _, _, s.writesResultAndFlag_setResultAndFlag x _ _, subSaturate_toNat _ _,
    notBorrowFlag_toNat _ _⟩

end Sys2Proof.Machine
end

section
/-! PROOFS. The index register's addition (spec/45_index_memory.md R201). -/

namespace Sys2Proof.Machine

/-- `zext_16` keeps a byte's value. -/
theorem byteWord_toNat (b : Byte) : (byteWord b).toNat = b.toNat :=
  BitVec.toNat_setWidth_of_le (by decide)

theorem State.addI_i_toNat (s : State) (k : Word) : (s.addI k).i.toNat = (s.i.toNat + k.toNat) % 65536 := by
  rw [State.addI_i, BitVec.toNat_add]

/-- The frame of every advance of I: I is the only part it writes. -/
theorem State.addI_keepsAllBut_index (s : State) (k : Word) : KeepsAllBut [.index] s (s.addI k) where
  cfg := s.addI_cfg k
  keys := s.addI_keys k
  regs := .inr fun _ => rfl
  index := .inl List.mem_cons_self
  pc := .inr (s.addI_pc k)
  stack := .inr (s.addI_stack k)
  delay := .inr (s.addI_dt k)
  sound := .inr (s.addI_st k)
  display := .inr ⟨s.addI_disp k, s.addI_dirty k⟩
  wait := .inr (s.addI_wait k)
  fault := .inr (s.addI_fault k)
  memory := .inr fun _ => rfl
  draws := .inr (s.addI_draws k)

theorem exec_addIVx (x : Index) (s : State) : exec (.addIVx x) s = .next (s.addI (byteWord (s.reg x))) := rfl

/-- Settles O49: the instruction is one advance of I, by the zero-extended Vx. -/
theorem addToIndexWrapsWithoutFlag : Obligations.AddToIndexWrapsWithoutFlag := by
  intro x s
  refine ⟨_, exec_addIVx x s, ?_, s.addI_keepsAllBut_index _⟩
  rw [State.addI_i_toNat, byteWord_toNat]

end Sys2Proof.Machine
end

section
/-! PROOFS. Decoding and encoding undo each other, and the unrecognized words (spec/30_encoding.md R73-R82). -/

namespace Sys2Proof

/-! The word a view puts together -/

theorem nibble_eq_of_val {k : Fin 16} {f : BitVec 4} (h : k.val = f.toNat) : nibble k = f := BitVec.eq_of_toNat_eq h

theorem encodeNNN_of_family {w : Word} {f : BitVec 4} (hf : (fieldFamily w).val = f.toNat) :
    encodeNNN f (fieldNNN w) = w := by
  rw [← nibble_eq_of_val hf, encodeNNN_fields]

theorem encodeXKK_of_family {w : Word} {f : BitVec 4} {kk : Byte} (hf : (fieldFamily w).val = f.toNat)
    (hk : (fieldKK w).toNat = kk.toNat) : encodeXKK f (fieldX w) kk = w := by
  rw [← nibble_eq_of_val hf, ← BitVec.eq_of_toNat_eq hk, encodeXKK_fields]

theorem encodeXYN_of_family {w : Word} {f : BitVec 4} {n : Fin 16} (hf : (fieldFamily w).val = f.toNat)
    (hn : (fieldN w).val = n.val) : encodeXYN f (fieldX w) (fieldY w) n = w := by
  rw [← nibble_eq_of_val hf, ← Fin.ext hn, encodeXYN_fields]

/-! Family 0, which decodes by the whole word (R74) -/

theorem encodeNNN_inj {f : BitVec 4} {a b : Addr12} (h : encodeNNN f a = encodeNNN f b) : a = b := by
  rw [← fieldNNN_encodeNNN f a, h, fieldNNN_encodeNNN]

theorem wellFormed_sys {ops : UnlistedOps} {nnn : Addr12} :
    (Instr.sys nnn).wellFormed ops = true ↔ nnn ≠ 0x0E0 ∧ nnn ≠ 0x0EE := by
  rw [Instr.wellFormed, Bool.and_eq_true, bne_iff_ne, bne_iff_ne]

theorem decodeFamily0_encodeNNN {nnn : Addr12} (hcls : nnn ≠ 0x0E0) (hret : nnn ≠ 0x0EE) :
    decodeFamily0 (encodeNNN 0x0 nnn) = .sys nnn := by
  have h₁ : encodeNNN 0x0 nnn ≠ 0x00E0 := fun h => hcls (encodeNNN_inj (f := 0x0) h)
  have h₂ : encodeNNN 0x0 nnn ≠ 0x00EE := fun h => hret (encodeNNN_inj (f := 0x0) h)
  rw [decodeFamily0, if_neg h₁, if_neg h₂, fieldNNN_encodeNNN]

theorem wellFormed_encode_decodeFamily0 (ops : UnlistedOps) {w : Word} (hf : (fieldFamily w).val = 0x0) :
    (decodeFamily0 w).wellFormed ops = true ∧ encode (decodeFamily0 w) = w := by
  have hw : encodeNNN 0x0 (fieldNNN w) = w := encodeNNN_of_family hf
  unfold decodeFamily0
  split_ifs with hcls hret
  · exact ⟨rfl, hcls.symm⟩
  · exact ⟨rfl, hret.symm⟩
  · have h₁ : fieldNNN w ≠ 0x0E0 := fun h => hcls (hw.symm.trans (congrArg (encodeNNN 0x0) h))
    have h₂ : fieldNNN w ≠ 0x0EE := fun h => hret (hw.symm.trans (congrArg (encodeNNN 0x0) h))
    exact ⟨wellFormed_sys.mpr ⟨h₁, h₂⟩, hw⟩

/-! The instructions that UNLISTED_OPS may exclude (R75, R79) -/

theorem unlisted_eq_ok {ops : UnlistedOps} {i j : Instr} : unlisted ops i = .ok j ↔ ops.present = true ∧ i = j := by
  unfold unlisted
  split_ifs with h <;> simp [h]

/-! The round trips -/

/-- Settles O2: each view's fields are read back, family and sub-field select the constructor's own arm. -/
theorem decodeOfEncodedInstructionIsIt : Obligations.DecodeOfEncodedInstructionIsIt := by
  intro ops i h
  cases i
  case sys nnn =>
    obtain ⟨hcls, hret⟩ := wellFormed_sys.mp h
    rw [encode, decodeWord, fieldFamily_encodeNNN]
    exact congrArg Except.ok (decodeFamily0_encodeNNN hcls hret)
  case cls => cases ops <;> rfl
  case ret => cases ops <;> rfl
  case jp nnn | call nnn =>
    simp [encode, decodeWord, fieldFamily_encodeNNN, fieldNNN_encodeNNN]
  case ldI nnn | jpV0 nnn =>
    simpa [Instr.wellFormed, encode, decodeWord, fieldFamily_encodeNNN, fieldNNN_encodeNNN, unlisted_eq_ok] using h
  case subn x y =>
    simpa [Instr.wellFormed, encode, decodeWord, decodeFamily8, fieldFamily_encodeXYN, fieldX_encodeXYN, fieldY_encodeXYN,
      fieldN_encodeXYN, unlisted_eq_ok] using h
  case seImm | sneImm | ldImm | addImm | rnd =>
    simp [encode, decodeWord, fieldFamily_encodeXKK, fieldX_encodeXKK, fieldKK_encodeXKK]
  case skp | sknp =>
    simp [encode, decodeWord, decodeFamilyE, fieldFamily_encodeXKK, fieldX_encodeXKK, fieldKK_encodeXKK]
  case ldVxDT | ldVxK | ldDTVx | ldSTVx | addIVx | ldFVx | ldBVx | ldMemVx | ldVxMem =>
    simp [encode, decodeWord, decodeFamilyF, fieldFamily_encodeXKK, fieldX_encodeXKK, fieldKK_encodeXKK]
  case seReg | sneReg | drw =>
    simp [encode, decodeWord, fieldFamily_encodeXYN, fieldX_encodeXYN, fieldY_encodeXYN, fieldN_encodeXYN]
  case ldReg | orReg | andReg | xorReg | addReg | subReg | shr | shl =>
    simp [encode, decodeWord, decodeFamily8, fieldFamily_encodeXYN, fieldX_encodeXYN, fieldY_encodeXYN,
      fieldN_encodeXYN]

theorem encode_of_decodeFamily8 {ops : UnlistedOps} {w : Word} {i : Instr} (hf : (fieldFamily w).val = 0x8)
    (h : decodeFamily8 ops w = .ok i) : i.wellFormed ops = true ∧ encode i = w := by
  unfold decodeFamily8 at h
  split at h
  case h_8 hn =>
    obtain ⟨hp, rfl⟩ := unlisted_eq_ok.mp h
    exact ⟨hp, encodeXYN_of_family hf hn⟩
  case h_10 => cases h
  all_goals
    next hn =>
    cases h
    exact ⟨rfl, encodeXYN_of_family hf hn⟩

theorem encode_of_decodeFamilyE {ops : UnlistedOps} {w : Word} {i : Instr} (hf : (fieldFamily w).val = 0xE)
    (h : decodeFamilyE w = .ok i) : i.wellFormed ops = true ∧ encode i = w := by
  unfold decodeFamilyE at h
  split at h
  case h_3 => cases h
  all_goals
    next hk =>
    cases h
    exact ⟨rfl, encodeXKK_of_family hf hk⟩

theorem encode_of_decodeFamilyF {ops : UnlistedOps} {w : Word} {i : Instr} (hf : (fieldFamily w).val = 0xF)
    (h : decodeFamilyF w = .ok i) : i.wellFormed ops = true ∧ encode i = w := by
  unfold decodeFamilyF at h
  split at h
  case h_10 => cases h
  all_goals
    next hk =>
    cases h
    exact ⟨rfl, encodeXKK_of_family hf hk⟩

/-- Families 5 and 9 have one instruction, under sub-field 0 (R78). -/
theorem encode_of_subFieldZero {ops : UnlistedOps} {w : Word} {i j : Instr} {e : DecodeReject}
    (h : (if fieldN w = 0 then Except.ok j else Except.error e) = .ok i)
    (hj : fieldN w = 0 → j.wellFormed ops = true ∧ encode j = w) : i.wellFormed ops = true ∧ encode i = w := by
  split_ifs at h with hn
  cases h
  exact hj hn

/-- Settles O3: every arm of the decoder builds its instruction from the word's own fields, which make up the word again. -/
theorem encodeOfDecodedWordIsIt : Obligations.EncodeOfDecodedWordIsIt := by
  intro ops w i h
  unfold decodeWord at h
  split at h
  case h_1 hf => cases h; exact wellFormed_encode_decodeFamily0 ops hf
  case h_2 hf | h_3 hf => cases h; exact ⟨rfl, encodeNNN_of_family hf⟩
  case h_4 hf | h_5 hf | h_7 hf | h_8 hf | h_13 hf => cases h; exact ⟨rfl, encodeXKK_of_family hf rfl⟩
  case h_6 hf | h_10 hf =>
    exact encode_of_subFieldZero h fun hn => ⟨rfl, encodeXYN_of_family hf (congrArg Fin.val hn)⟩
  case h_9 hf => exact encode_of_decodeFamily8 hf h
  case h_11 hf | h_12 hf =>
    obtain ⟨hp, rfl⟩ := unlisted_eq_ok.mp h
    exact ⟨hp, encodeNNN_of_family hf⟩
  case h_14 hf => cases h; exact ⟨rfl, encodeXYN_of_family hf rfl⟩
  case h_15 hf => exact encode_of_decodeFamilyE hf h
  case h_16 =>
    have hf : (fieldFamily w).val = 0xF := by
      have := (fieldFamily w).isLt
      simp only [imp_false] at *
      omega
    exact encode_of_decodeFamilyF hf h

/-! The unrecognized words -/

theorem shiftRight_12_eq_iff {w : Word} {f : Nat} (hf : f < 16) :
    w >>> 12 = BitVec.ofNat 16 f ↔ (fieldFamily w).val = f := by
  have hw : (fieldFamily w).val = w.toNat / 2 ^ 12 := by
    have := w.isLt
    simp [fieldFamily, Nat.shiftRight_eq_div_pow]
    omega
  rw [hw, BitVec.toNat_eq, BitVec.toNat_ushiftRight, Nat.shiftRight_eq_div_pow, BitVec.toNat_ofNat,
    Nat.mod_eq_of_lt (by omega)]

theorem and_0xF_eq_iff {w : Word} {n : Nat} (hn : n < 16) : w &&& 0xF#16 = BitVec.ofNat 16 n ↔ (fieldN w).val = n := by
  have hw : w.toNat &&& 15 = w.toNat % 16 := Nat.and_two_pow_sub_one_eq_mod _ 4
  simp [BitVec.toNat_eq, fieldN, hw, Nat.mod_eq_of_lt (show n < 65536 by omega)]

theorem and_0xFF_eq_iff {w : Word} {k : Nat} (hk : k < 256) :
    w &&& 0xFF#16 = BitVec.ofNat 16 k ↔ (fieldKK w).toNat = k := by
  have hw : w.toNat &&& 255 = w.toNat % 256 := Nat.and_two_pow_sub_one_eq_mod _ 8
  simp [BitVec.toNat_eq, fieldKK, hw, Nat.mod_eq_of_lt (show k < 65536 by omega)]

theorem unrecognized_family0 {ops : UnlistedOps} {w : Word} (hf : (fieldFamily w).val = 0x0) :
    unrecognized ops w = true ↔ w ≠ 0x00E0 ∧ w ≠ 0x00EE := by
  simp only [unrecognized, decodeWord, hf, decodeFamily0]
  by_cases h₁ : w = 0x00E0
  · simp [h₁]
  by_cases h₂ : w = 0x00EE
  · simp [h₂]
  rw [if_neg h₁, if_neg h₂]
  exact iff_of_true rfl ⟨h₁, h₂⟩

/-- SYS is the word of family 0 alone, so in every other family the unrecognized words are the rejected ones. -/
theorem unrecognized_iff_rejected {ops : UnlistedOps} {w : Word} (hf : (fieldFamily w).val ≠ 0x0) :
    unrecognized ops w = true ↔ ∃ e, decodeWord ops w = .error e := by
  unfold unrecognized
  split
  case h_1 e he => exact iff_of_true rfl ⟨e, he⟩
  case h_2 nnn hd =>
    obtain ⟨_, rfl⟩ := encodeOfDecodedWordIsIt ops w _ hd
    exact absurd (congrArg Fin.val (fieldFamily_encodeNNN 0x0 nnn)) hf
  case h_3 hd => simp [hd]

/-- Families 5 and 9 reject every sub-field but 0 (R78). -/
theorem subFieldZero_rejects_iff {w : Word} {j : Instr} {e : DecodeReject} :
    (∃ e', (if fieldN w = 0 then Except.ok j else Except.error e) = .error e') ↔ fieldN w ≠ 0 := by
  split_ifs with h <;> simp [h]

theorem unlisted_rejects_iff {ops : UnlistedOps} {i : Instr} : (∃ e, unlisted ops i = .error e) ↔ ops = .invalid := by
  cases ops <;> simp [unlisted, UnlistedOps.present]

theorem rejected_family8_iff {ops : UnlistedOps} {w : Word} (hf : (fieldFamily w).val = 0x8) :
    (∃ e, decodeWord ops w = .error e) ↔
      (fieldN w).val ∈ [0x8, 0x9, 0xA, 0xB, 0xC, 0xD, 0xF] ∨ ops = .invalid ∧ (fieldN w).val = 0x7 := by
  have hn := (fieldN w).isLt
  simp only [decodeWord, hf, decodeFamily8]
  generalize (fieldN w).val = n at hn
  interval_cases n <;> simp [unlisted_rejects_iff]

theorem rejected_familyE_iff {ops : UnlistedOps} {w : Word} (hf : (fieldFamily w).val = 0xE) :
    (∃ e, decodeWord ops w = .error e) ↔ (fieldKK w).toNat ∉ [0x9E, 0xA1] := by
  simp only [decodeWord, hf, decodeFamilyE]
  split <;> simp_all

theorem rejected_familyF_iff {ops : UnlistedOps} {w : Word} (hf : (fieldFamily w).val = 0xF) :
    (∃ e, decodeWord ops w = .error e) ↔
      (fieldKK w).toNat ∉ [0x07, 0x0A, 0x15, 0x18, 0x1E, 0x29, 0x33, 0x55, 0x65] := by
  simp only [decodeWord, hf, decodeFamilyF]
  split <;> simp_all

/-- Settles O4: family by family, the decoder's reject arms and SYS are the clauses of R80. -/
theorem unrecognizedWordsAreExactlyThoseListed : Obligations.UnrecognizedWordsAreExactlyThoseListed := by
  intro ops w
  match hf : (fieldFamily w).val, (fieldFamily w).isLt with
  | 0x0, _ =>
    rw [unrecognized_family0 hf]
    simp [shiftRight_12_eq_iff, hf]
  | 0x8, _ =>
    rw [unrecognized_iff_rejected (by omega), rejected_family8_iff hf]
    simp [shiftRight_12_eq_iff, and_0xF_eq_iff, hf]
  | 0xE, _ =>
    rw [unrecognized_iff_rejected (by omega), rejected_familyE_iff hf]
    simp [shiftRight_12_eq_iff, and_0xFF_eq_iff, hf]
  | 0xF, _ =>
    rw [unrecognized_iff_rejected (by omega), rejected_familyF_iff hf]
    simp [shiftRight_12_eq_iff, and_0xFF_eq_iff, hf]
  | 0x1, _ | 0x2, _ | 0x3, _ | 0x4, _ | 0x5, _ | 0x6, _ | 0x7, _ | 0x9, _ | 0xA, _ | 0xB, _ | 0xC, _ | 0xD, _ =>
    rw [unrecognized_iff_rejected (by omega)]
    simp [shiftRight_12_eq_iff, and_0xF_eq_iff, hf, decodeWord, subFieldZero_rejects_iff, unlisted_rejects_iff]
  | n + 16, hlt => omega

/-- Settles O1: nine evaluations of the decoder. -/
theorem specWordsDecodeToTheirInstructions : Obligations.SpecWordsDecodeToTheirInstructions := by
  unfold Obligations.SpecWordsDecodeToTheirInstructions
  decide

end Sys2Proof
end

section
/-! PROOFS. The parts of the state each instruction may write, said once (spec/10_state.md R22-R37, spec/60_exceptions.md R224):
frames of effects, and the state an aborted instruction answers. -/

namespace Sys2Proof.Machine

/-! States that agree outside some parts -/

/-- `s` with the named parts taken from `t`. -/
def State.taking (changed : List Part) (s t : State) : State where
  cfg := s.cfg
  v := if .regs ∈ changed then t.v else s.v
  i := if .index ∈ changed then t.i else s.i
  pc := if .pc ∈ changed then t.pc else s.pc
  stack := if .stack ∈ changed then t.stack else s.stack
  dt := if .delay ∈ changed then t.dt else s.dt
  st := if .sound ∈ changed then t.st else s.st
  disp := if .display ∈ changed then t.disp else s.disp
  dirty := if .display ∈ changed then t.dirty else s.dirty
  keys := s.keys
  wait := if .wait ∈ changed then t.wait else s.wait
  fault := if .fault ∈ changed then t.fault else s.fault
  mem := if .memory ∈ changed then t.mem else s.mem
  draws := if .draws ∈ changed then t.draws else s.draws

/-- A state built from `s` by writing the named parts only keeps every other part. -/
theorem keepsAllBut_of_taking {changed : List Part} {s t : State} (h : t = s.taking changed t) :
    KeepsAllBut changed s t where
  cfg := (congrArg State.cfg h).trans rfl
  keys := (congrArg State.keys h).trans rfl
  regs := (Classical.em _).imp_right fun hp => State.reg_congr ((congrArg State.v h).trans (if_neg hp))
  index := (Classical.em _).imp_right fun hp => (congrArg State.i h).trans (if_neg hp)
  pc := (Classical.em _).imp_right fun hp => (congrArg State.pc h).trans (if_neg hp)
  stack := (Classical.em _).imp_right fun hp => (congrArg State.stack h).trans (if_neg hp)
  delay := (Classical.em _).imp_right fun hp => (congrArg State.dt h).trans (if_neg hp)
  sound := (Classical.em _).imp_right fun hp => (congrArg State.st h).trans (if_neg hp)
  display := (Classical.em _).imp_right fun hp =>
    ⟨(congrArg State.disp h).trans (if_neg hp), (congrArg State.dirty h).trans (if_neg hp)⟩
  wait := (Classical.em _).imp_right fun hp => (congrArg State.wait h).trans (if_neg hp)
  fault := (Classical.em _).imp_right fun hp => (congrArg State.fault h).trans (if_neg hp)
  memory := (Classical.em _).imp_right fun hp =>
    State.byteAt_congr ((congrArg State.cfg h).trans rfl) ((congrArg State.mem h).trans (if_neg hp))
  draws := (Classical.em _).imp_right fun hp => (congrArg State.draws h).trans (if_neg hp)

/-! The parts an effect writes -/

/-- The parts of the state the effect of an instruction may write, PC beyond the default advance (the pseudocode of its rule). -/
def writtenParts : Instr → List Part
  | .sys _ => []
  | .cls => [.display]
  | .ret => [.pc, .stack]
  | .call _ => [.pc, .stack]
  | .jp _ => [.pc]
  | .jpV0 _ => [.pc]
  | .seImm _ _ => [.pc]
  | .sneImm _ _ => [.pc]
  | .seReg _ _ => [.pc]
  | .sneReg _ _ => [.pc]
  | .skp _ => [.pc]
  | .sknp _ => [.pc]
  | .ldImm _ _ => [.regs]
  | .addImm _ _ => [.regs]
  | .ldReg _ _ => [.regs]
  | .orReg _ _ => [.regs]
  | .andReg _ _ => [.regs]
  | .xorReg _ _ => [.regs]
  | .addReg _ _ => [.regs]
  | .subReg _ _ => [.regs]
  | .shr _ _ => [.regs]
  | .subn _ _ => [.regs]
  | .shl _ _ => [.regs]
  | .ldVxDT _ => [.regs]
  | .rnd _ _ => [.regs, .draws]
  | .drw _ _ _ => [.regs, .display]
  | .ldVxK _ => [.regs, .wait]
  | .ldDTVx _ => [.delay]
  | .ldSTVx _ => [.sound]
  | .ldI _ => [.index]
  | .addIVx _ => [.index]
  | .ldFVx _ => [.index]
  | .ldBVx _ => [.memory]
  | .ldMemVx _ => [.memory, .index]
  | .ldVxMem _ => [.regs, .index]

/-- The one frame of every effect: it writes its own parts and no other. -/
theorem effect_eq_taking {i : Instr} {s t : State} (h : effect i s = .ok t) : t = s.taking (writtenParts i) t := by
  cases i
  case ret =>
    obtain ⟨⟨a, u⟩, hp, rfl⟩ := except_map_eq_ok h
    rw [(State.pop_eq_ok hp).2]
    rfl
  case call nnn =>
    obtain ⟨u, hp, rfl⟩ := except_map_eq_ok h
    rw [(State.push_eq_ok hp).2]
    rfl
  case drw x y n =>
    obtain ⟨bytes, _, rfl⟩ := except_map_eq_ok h
    rfl
  case ldVxK x =>
    simp only [effect] at h
    split at h <;> cases h <;> rfl
  case ldBVx x =>
    rw [(State.writeBytes_eq_ok h).1, State.setBytes_eq]
    rfl
  case ldMemVx x =>
    obtain ⟨u, hw, rfl⟩ := except_map_eq_ok h
    rw [(State.writeBytes_eq_ok hw).1, State.setBytes_eq]
    rfl
  case ldVxMem x =>
    obtain ⟨bytes, _, rfl⟩ := except_map_eq_ok h
    rfl
  case skp x | sknp x =>
    obtain ⟨k, _, rfl⟩ := except_map_eq_ok h
    rw [State.skipIf_eq]
    rfl
  case seImm | sneImm | seReg | sneReg =>
    cases h
    rw [State.skipIf_eq]
    rfl
  all_goals
    cases h
    rfl

theorem effect_keepsAllBut {i : Instr} {s t : State} (h : effect i s = .ok t) : KeepsAllBut (writtenParts i) s t :=
  keepsAllBut_of_taking (effect_eq_taking h)

section
variable {i : Instr} {s t : State}

theorem effect_regs (h : effect i s = .ok t) (hp : .regs ∉ writtenParts i) (r : Index) : t.reg r = s.reg r :=
  (effect_keepsAllBut h).regs.resolve_left hp r

theorem effect_index (h : effect i s = .ok t) (hp : .index ∉ writtenParts i) : t.i = s.i :=
  (effect_keepsAllBut h).index.resolve_left hp

theorem effect_pc (h : effect i s = .ok t) (hp : .pc ∉ writtenParts i) : t.pc = s.pc :=
  (effect_keepsAllBut h).pc.resolve_left hp

theorem effect_stack (h : effect i s = .ok t) (hp : .stack ∉ writtenParts i) : t.stack = s.stack :=
  (effect_keepsAllBut h).stack.resolve_left hp

theorem effect_delay (h : effect i s = .ok t) (hp : .delay ∉ writtenParts i) : t.dt = s.dt :=
  (effect_keepsAllBut h).delay.resolve_left hp

theorem effect_sound (h : effect i s = .ok t) (hp : .sound ∉ writtenParts i) : t.st = s.st :=
  (effect_keepsAllBut h).sound.resolve_left hp

theorem effect_display (h : effect i s = .ok t) (hp : .display ∉ writtenParts i) : t.disp = s.disp ∧ t.dirty = s.dirty :=
  (effect_keepsAllBut h).display.resolve_left hp

theorem effect_wait (h : effect i s = .ok t) (hp : .wait ∉ writtenParts i) : t.wait = s.wait :=
  (effect_keepsAllBut h).wait.resolve_left hp

theorem effect_byteAt (h : effect i s = .ok t) (hp : .memory ∉ writtenParts i) (a : Nat) : t.byteAt a = s.byteAt a :=
  (effect_keepsAllBut h).memory.resolve_left hp a

theorem effect_mem (h : effect i s = .ok t) (hp : .memory ∉ writtenParts i) : t.mem = s.mem :=
  (congrArg State.mem (effect_eq_taking h)).trans (if_neg hp)

end

/-! Which instructions write a part -/

theorem writes_stack_iff {i : Instr} : .stack ∈ writtenParts i ↔ i = .ret ∨ ∃ nnn, i = .call nnn := by
  cases i <;> simp [writtenParts]

theorem writes_delay_iff {i : Instr} : .delay ∈ writtenParts i ↔ ∃ x, i = .ldDTVx x := by
  cases i <;> simp [writtenParts]

theorem writes_sound_iff {i : Instr} : .sound ∈ writtenParts i ↔ ∃ x, i = .ldSTVx x := by
  cases i <;> simp [writtenParts]

theorem writes_display_iff {i : Instr} : .display ∈ writtenParts i ↔ i = .cls ∨ ∃ x y n, i = .drw x y n := by
  cases i <;> simp [writtenParts]

theorem writes_wait_iff {i : Instr} : .wait ∈ writtenParts i ↔ ∃ x, i = .ldVxK x := by
  cases i <;> simp [writtenParts]

theorem writes_memory_iff {i : Instr} : .memory ∈ writtenParts i ↔ (∃ x, i = .ldBVx x) ∨ ∃ x, i = .ldMemVx x := by
  cases i <;> simp [writtenParts]

theorem writes_index_iff {i : Instr} : .index ∈ writtenParts i ↔
    (∃ nnn, i = .ldI nnn) ∨ ∃ x, i = .addIVx x ∨ i = .ldFVx x ∨ i = .ldMemVx x ∨ i = .ldVxMem x := by
  cases i <;> simp [writtenParts]

/-! An effect committed, or the fatal condition taken -/

theorem exec_of_effect {i : Instr} {s t : State} (h : effect i s = .ok t) : exec i s = .next t := by
  rw [exec_eq_commit, h, State.commit_ok]

theorem exec_of_raised {i : Instr} {s : State} {k : Fault} (h : effect i s = .error k) :
    exec i s = .next (s.takeFatal k) := by
  rw [exec_eq_commit, h, State.commit_error]

/-- An instruction that answers a state without a fault committed its whole effect. -/
theorem effect_of_exec {i : Instr} {s t : State} (h : exec i s = .next t) (hnone : t.fault = none) : effect i s = .ok t := by
  obtain hok | ⟨k, -, rfl⟩ := exec_cases h
  · exact hok
  · cases hnone

theorem State.takeFatal_aborts (s : State) (k : Fault) : Aborts s (s.takeFatal k) k :=
  ⟨BitVec.sub_add_cancel s.pc 2, rfl, keepsAllBut_of_taking rfl⟩

/-- An instruction that raises answers the state of R224. -/
theorem exec_aborts {i : Instr} {s : State} {k : Fault} (h : effect i s = .error k) :
    ∃ t, exec i s = .next t ∧ Aborts s t k :=
  ⟨_, exec_of_raised h, s.takeFatal_aborts k⟩

end Sys2Proof.Machine
end

section
/-! PROOFS. The two invariants of the state, kept by every effect, every step and every host operation (spec/10_state.md R28, R29,
spec/20_memory.md R57-R62, spec/40_cycle.md R94). -/

namespace Sys2Proof.Machine

/-! Canonical memory and the bounded stack -/

/-- The invariant reads the configuration, memory and the stack alone. -/
theorem State.Inv.congr {s t : State} (h : s.Inv) (hc : t.cfg = s.cfg) (hm : t.mem = s.mem) (hs : t.stack = s.stack) :
    t.Inv where
  memoryWf := by rw [hc, hm]; exact h.memoryWf
  stackFits := by simpa only [State.sp, State.stackLimit, hc, hs] using h.stackFits

theorem State.writeBytes_keeps_memoryWf {s t : State} {a : Nat} {bs : List Byte} (h : s.writeBytes a bs = .ok t)
    (hs : Memory.wf s.cfg.font s.mem = true) : Memory.wf s.cfg.font t.mem = true := by
  obtain ⟨rfl, hlen | rfl⟩ := State.writeBytes_eq_ok h
  · exact State.wf_setBytes s a bs hlen hs
  · exact hs

theorem effect_keeps_memoryWf {i : Instr} {s t : State} (h : effect i s = .ok t)
    (hs : Memory.wf s.cfg.font s.mem = true) : Memory.wf s.cfg.font t.mem = true := by
  by_cases hp : .memory ∈ writtenParts i
  · obtain ⟨x, rfl⟩ | ⟨x, rfl⟩ := writes_memory_iff.mp hp
    · exact State.writeBytes_keeps_memoryWf h hs
    · obtain ⟨u, hw, rfl⟩ := except_map_eq_ok h
      rw [State.addI_mem]
      exact State.writeBytes_keeps_memoryWf hw hs
  · rw [effect_mem h hp]
    exact hs

/-- RET shortens the stack, and CALL lengthens it only with room left (R111, R113). -/
theorem effect_keeps_stackFits {i : Instr} {s t : State} (h : effect i s = .ok t) (hs : s.sp ≤ s.stackLimit) :
    t.sp ≤ s.stackLimit := by
  by_cases hp : .stack ∈ writtenParts i
  · obtain rfl | ⟨nnn, rfl⟩ := writes_stack_iff.mp hp
    · obtain ⟨⟨a, u⟩, hpop, rfl⟩ := except_map_eq_ok h
      have hlen : s.sp = u.sp + 1 := by simp [State.sp, (State.pop_eq_ok hpop).1]
      show u.sp ≤ s.stackLimit
      omega
    · obtain ⟨u, hpush, rfl⟩ := except_map_eq_ok h
      obtain ⟨hroom, rfl⟩ := State.push_eq_ok hpush
      rw [State.sp, State.jump_stack, List.length_append]
      exact Nat.lt_of_le_of_ne hs hroom
  · rw [State.sp, effect_stack h hp]
    exact hs

theorem effect_keeps_inv {i : Instr} {s t : State} (h : effect i s = .ok t) (hs : s.Inv) : t.Inv := by
  obtain ⟨hc, -, -⟩ := effect_keeps h
  refine ⟨?_, ?_⟩
  · rw [hc]
    exact effect_keeps_memoryWf h hs.memoryWf
  · rw [State.stackLimit, hc]
    exact effect_keeps_stackFits h hs.stackFits

/-! PC and the return addresses -/

theorem addrWord_toNat (nnn : Addr12) : (addrWord nnn).toNat = nnn.toNat :=
  BitVec.toNat_setWidth_of_le (by decide)

/-- The target of Bnnn never wraps (R114). -/
theorem addrWord_add_byteWord_toNat (nnn : Addr12) (b : Byte) :
    (addrWord nnn + byteWord b).toNat = nnn.toNat + b.toNat := by
  have hn : nnn.toNat < 4096 := nnn.isLt
  have hb : b.toNat < 256 := b.isLt
  rw [BitVec.toNat_add, addrWord_toNat, byteWord_toNat, Nat.mod_eq_of_lt (by omega)]

theorem State.skipIf_pc_le {s : State} (c : Bool) (h : s.pc.toNat ≤ 0x1000) : (s.skipIf c).pc.toNat ≤ 0x1002 := by
  rw [State.skipIf_pc_toNat]
  split_ifs <;> omega

theorem effect_pc_le {i : Instr} {s t : State} (h : effect i s = .ok t) (hpc : s.pc.toNat ≤ 0x1000)
    (hret : ∀ a ∈ s.stack, a.toNat ≤ 0x1000) : t.pc.toNat ≤ 0x10FE := by
  cases i
  case ret =>
    obtain ⟨⟨a, u⟩, hp, rfl⟩ := except_map_eq_ok h
    have ha : a.toNat ≤ 0x1000 := hret a (by simp [(State.pop_eq_ok hp).1])
    exact ha.trans (by decide)
  case jp nnn =>
    cases h
    rw [State.jump_pc, addrWord_toNat]
    exact (Nat.le_of_lt_succ nnn.isLt).trans (by decide)
  case call nnn =>
    obtain ⟨u, -, rfl⟩ := except_map_eq_ok h
    rw [State.jump_pc, addrWord_toNat]
    exact (Nat.le_of_lt_succ nnn.isLt).trans (by decide)
  case jpV0 nnn =>
    cases h
    rw [State.jump_pc, addrWord_add_byteWord_toNat]
    exact Nat.add_le_add (Nat.le_of_lt_succ nnn.isLt) (Nat.le_of_lt_succ (s.reg 0).isLt)
  case seImm | sneImm | seReg | sneReg =>
    cases h
    exact (State.skipIf_pc_le _ hpc).trans (by decide)
  case skp x | sknp x =>
    obtain ⟨k, -, rfl⟩ := except_map_eq_ok h
    exact (State.skipIf_pc_le _ hpc).trans (by decide)
  all_goals
    rw [effect_pc h (by simp [writtenParts])]
    exact hpc.trans (by decide)

theorem effect_returns_le {i : Instr} {s t : State} (h : effect i s = .ok t) (hpc : s.pc.toNat ≤ 0x1000)
    (hret : ∀ a ∈ s.stack, a.toNat ≤ 0x1000) : ∀ a ∈ t.stack, a.toNat ≤ 0x1000 := by
  by_cases hp : .stack ∈ writtenParts i
  · obtain rfl | ⟨nnn, rfl⟩ := writes_stack_iff.mp hp
    · obtain ⟨⟨a, u⟩, hpop, rfl⟩ := except_map_eq_ok h
      exact fun b hb => hret b (by rw [(State.pop_eq_ok hpop).1]; exact List.mem_append_left [a] hb)
    · obtain ⟨u, hpush, rfl⟩ := except_map_eq_ok h
      obtain ⟨-, rfl⟩ := State.push_eq_ok hpush
      exact List.forall_mem_append.mpr ⟨hret, List.forall_mem_singleton.mpr hpc⟩
  · rw [effect_stack h hp]
    exact hret

/-! Every step keeps what its pieces keep -/

/-- A property of the state is kept by a step when the advance, every effect at the advanced PC, the tick, the latch and the end
of a key-wait keep it. -/
theorem step_keeps {P : State → Prop} {s t : State} (h : step s = .next t) (hs : P s)
    (hadvance : s.pc.toNat ≤ lastFetchAddress → P s.advance)
    (heffect : s.pc.toNat ≤ lastFetchAddress → ∀ i u, effect i s.advance = .ok u → P u)
    (htick : ∀ u, P u → P u.tick) (hlatch : ∀ k, P (s.latch k))
    (hresume : ∀ x b, P ({ s.setReg x b with wait := none } : State)) : P t := by
  rcases step_cases h with ⟨k, -, rfl⟩ | ⟨x, -, -, ⟨-, rfl⟩ | ⟨k, -, rfl⟩⟩ | ⟨-, -, rfl⟩ | ⟨-, hpc, -, rfl⟩ | ⟨i, u, hf, -, -⟩
  · exact hs
  · exact hs
  · exact htick _ (hresume x _)
  · exact hlatch _
  · exact htick _ (hadvance hpc)
  · rcases fetch_step hf h with ⟨u, hu, rfl, -⟩ | ⟨k, -, rfl⟩
    · exact htick _ (heffect hf.2.1 i u hu)
    · exact hlatch k

theorem step_keeps_inv {s t : State} (hs : s.Inv) (h : step s = .next t) : t.Inv :=
  have hadvance : s.advance.Inv := hs.congr rfl rfl rfl
  step_keeps h hs (fun _ => hadvance) (fun _ _ _ hu => effect_keeps_inv hu hadvance)
    (fun _ hu => hu.congr rfl rfl rfl) (fun _ => hs.congr rfl rfl rfl) (fun _ _ => hs.congr rfl rfl rfl)

/-- Settles O17: both clauses are kept by every piece of a step. -/
theorem stepKeepsMemoryCanonicalAndStackBounded : Obligations.StepKeepsMemoryCanonicalAndStackBounded :=
  fun _ _ => step_keeps_inv

/-- After a fetch PC is at most 0x1000, so a CALL pushes no more than that. -/
theorem State.advance_pc_le {s : State} (h : s.pc.toNat ≤ lastFetchAddress) : s.advance.pc.toNat ≤ 0x1000 := by
  rw [State.advance_pc, BitVec.toNat_add]
  exact (Nat.mod_le _ _).trans (Nat.add_le_add_right h 2)

/-- Settles O18: only PC at most 0xFFE fetches, and from the advanced PC every effect stays within the bounds. -/
theorem stepKeepsPcAndReturnAddressesBounded : Obligations.StepKeepsPcAndReturnAddressesBounded := by
  intro s t hs h
  obtain ⟨hpc, hret⟩ := id hs
  refine step_keeps h hs (fun hle => ?_) (fun hle i u hu => ?_) (fun u hu => ?_) (fun _ => ?_) (fun _ _ => ?_)
  · exact ⟨(State.advance_pc_le hle).trans (by decide), hret⟩
  · exact ⟨effect_pc_le hu (State.advance_pc_le hle) hret, effect_returns_le hu (State.advance_pc_le hle) hret⟩
  · exact ⟨hu.pcAtMost, hu.returnsAtMost⟩
  · exact ⟨hpc, hret⟩
  · exact ⟨hpc, hret⟩

/-! Construction and the host's operations -/

theorem State.new_inv (cfg : Cfg) : (State.new cfg).Inv := ⟨Memory.wf_nil _, Nat.zero_le _⟩

theorem State.new_pcBounded (cfg : Cfg) : (State.new cfg).PcBounded := ⟨by simp [State.new], by simp [State.new]⟩

/-- Settles O16: nothing is listed in memory, the stack is empty and PC is 0x200. -/
theorem newMachineMeetsTheInvariants : Obligations.NewMachineMeetsTheInvariants :=
  ⟨fun cfg => ⟨State.new_inv cfg, State.new_pcBounded cfg⟩, State.new_inv _, State.new_pcBounded _⟩

/-- Every call of `step()` answers a new state and an output (R90, R224). -/
theorem cycle_isNext (s : State) : ∃ c, cycle s = .next c := by
  cases hf : s.fault with
  | some k => exact ⟨_, cycle_halted hf⟩
  | none =>
    cases hw : s.wait with
    | some x => exact ⟨_, cycle_waiting hf hw⟩
    | none =>
      rcases Nat.lt_or_ge lastFetchAddress s.pc.toNat with hpc | hpc
      · exact ⟨_, cycle_beyond ⟨hf, hw⟩ hpc⟩
      · cases hd : decodeWord s.cfg.unlistedOps s.fetchWord with
        | error e => exact ⟨_, cycle_rejected ⟨hf, hw⟩ hpc hd⟩
        | ok i =>
          obtain ⟨t, ht⟩ := exec_isNext i s.advance
          exact ⟨_, cycle_fetches ⟨⟨hf, hw⟩, hpc, hd⟩ ht⟩

/-- A program that fits is copied inside 0x200 to 0xFFF (R60, R252). -/
theorem State.setBytes_programStart_inv {s : State} {bytes : List Byte} (hs : s.Inv) (hlen : bytes.length ≤ maxProgramLength) :
    (s.setBytes programStart bytes).Inv := by
  have hfit : programStart + bytes.length ≤ lastAddress + 1 := Nat.add_le_add_left hlen programStart
  have hwf := State.wf_setBytes s programStart bytes hfit hs.memoryWf
  rw [State.setBytes_eq]
  exact ⟨hwf, hs.stackFits⟩

/-- Settles O19: operation by operation. -/
theorem hostOperationsKeepTheInvariant : Obligations.HostOperationsKeepTheInvariant := by
  intro op s hs
  cases op with
  | reset => exact ⟨_, _, rfl, hs.memoryWf, Nat.zero_le _⟩
  | load bytes =>
    by_cases hlen : maxProgramLength < bytes.length
    · exact ⟨s, .failed .loadTooLarge, by simp [transact, State.load, hlen], hs⟩
    · exact ⟨_, .done, by simp [transact, State.load, hlen], State.setBytes_programStart_inv hs (Nat.not_lt.mp hlen)⟩
  | setKey k down => exact ⟨_, _, rfl, hs.congr rfl rfl rfl⟩
  | getDisplay => exact ⟨_, _, rfl, hs⟩
  | shouldDraw => exact ⟨_, _, rfl, hs.congr rfl rfl rfl⟩
  | step =>
    obtain ⟨c, hc⟩ := cycle_isNext s
    exact ⟨c.state, .stepped c.out, by simp [transact, hc], step_keeps_inv hs (step_of_cycle hc)⟩

end Sys2Proof.Machine
end

section
/-! PROOFS. The step: what it runs, what it reports, and how it ends (spec/40_cycle.md R90-R101, spec/60_exceptions.md R224). -/

namespace Sys2Proof.Machine

/-! The end of a fetching step -/

theorem cycleEnd_completed {t : State} (w : Word) (h : t.fault = none) :
    cycleEnd w t = ⟨t.tick, ⟨.executed w, diagnosticOf t.cfg.unlistedOps w, t.toneStops⟩⟩ := by
  simp only [cycleEnd, h]

theorem cycleEnd_fatal {t : State} {k : Fault} (w : Word) (h : t.fault = some k) :
    cycleEnd w t = ⟨t, quiet (.fatal k)⟩ := by
  simp only [cycleEnd, h]

/-- Settles O5: the fetch, the instruction at the advanced PC, and the end of the step in its two cases. -/
theorem stepRunsTheDecodedInstruction : Obligations.StepRunsTheDecodedInstruction := by
  rintro s t i w hf hw hpc rfl hd he
  have hcycle := cycle_fetches (s := s) ⟨⟨hf, hw⟩, hpc, hd⟩ he
  refine ⟨fun hnone => ?_, fun k hk => ?_⟩
  · rw [cycleEnd_completed _ hnone] at hcycle
    exact ⟨step_of_cycle hcycle, hcycle⟩
  · rw [cycleEnd_fatal _ hk] at hcycle
    exact ⟨step_of_cycle hcycle, hcycle⟩

/-- Settles O6: the cycle always answers, and the step is its state. -/
theorem everyStepAnswersANextState : Obligations.EveryStepAnswersANextState := fun s => by
  obtain ⟨c, hc⟩ := cycle_isNext s
  exact ⟨c.state, step_of_cycle hc⟩

/-! The states in which nothing is fetched -/

/-- Settles O7: by induction on the number of steps, each of which answers the same state. -/
theorem haltedMachineNeverChanges : Obligations.HaltedMachineNeverChanges := by
  intro s k n hk
  have hstep : core.step s = .next s := step_of_cycle (cycle_halted hk)
  refine ⟨?_, cycle_halted hk⟩
  induction n with
  | zero => rfl
  | succ n ih => simpa only [Host.Core.run, hstep] using ih

/-- A key's index written into Vx (R92, R184). -/
theorem State.setReg_key_toNat (s : State) (x k r : Index) :
    ((s.setReg x (BitVec.ofNat 8 k.val)).reg r).toNat = if r = x then k.val else (s.reg r).toNat := by
  rw [State.reg_setReg, apply_ite BitVec.toNat, BitVec.toNat_ofNat, Nat.mod_eq_of_lt (by omega)]

/-- Settles O8: the key scan finds no key, or the least key that is down. -/
theorem keyWaitBlocksOrResumesOnLeastKey : Obligations.KeyWaitBlocksOrResumesOnLeastKey := by
  intro s x hf hw
  refine ⟨fun hup => ?_, fun k hk hlt => ?_⟩
  · have hcycle := cycle_waiting hf hw
    rw [cycleWaiting, leastDown_eq_none hup] at hcycle
    exact ⟨hcycle, step_of_cycle hcycle⟩
  · have hcycle := cycle_waiting hf hw
    rw [cycleWaiting, leastDown_eq_some hk hlt] at hcycle
    exact ⟨_, hcycle, step_of_cycle hcycle, rfl, s.setReg_key_toNat x k, toNat_countDown _, toNat_countDown _,
      keepsAllBut_of_taking rfl⟩

/-- Settles O9: the fetch of a running machine beyond memory. -/
theorem fetchBeyondMemoryLatchesPcOutOfRange : Obligations.FetchBeyondMemoryLatchesPcOutOfRange := fun _ hr hpc =>
  ⟨step_of_cycle (cycle_beyond hr hpc), cycle_beyond hr hpc⟩

/-! Unrecognized words -/

/-- A rejected word and SYS alike leave the advanced state to the tick (R100, R101). -/
theorem cycle_unrecognized {s : State} (hr : s.Running) (hpc : s.pc.toNat ≤ lastFetchAddress)
    (hw : unrecognized s.cfg.unlistedOps s.fetchWord = true) :
    cycle s = .next (cycleEnd s.fetchWord s.advance) := by
  unfold unrecognized at hw
  split at hw
  case h_1 e hd => exact cycle_rejected hr hpc hd
  case h_2 nnn hd => exact cycle_fetches ⟨hr, hpc, hd⟩ rfl
  case h_3 => cases hw

/-- Settles O10: the step over an unrecognized word is the advance and the tick. -/
theorem unrecognizedWordOnlyAdvancesAndTicks : Obligations.UnrecognizedWordOnlyAdvancesAndTicks := by
  refine ⟨fun ops => by cases ops <;> rfl, fun s hr hpc hw => ?_⟩
  have hcycle := cycle_unrecognized hr hpc hw
  rw [cycleEnd_completed _ (show s.advance.fault = none from hr.1), State.advance_cfg, diagnosticOf, if_pos hw] at hcycle
  exact ⟨_, hcycle, step_of_cycle hcycle, rfl, toNat_countDown _, toNat_countDown _, keepsAllBut_of_taking rfl⟩

/-- Settles O11: the effect of SYS writes no part. -/
theorem sysHasNoEffectOfItsOwn : Obligations.SysHasNoEffectOfItsOwn := fun nnn s =>
  ⟨s, rfl, effect_keepsAllBut (i := .sys nnn) rfl⟩

/-! Completion and fatal conditions -/

/-- Settles O12: a completed step ticks a state without a fault, and every other running step is a latch. -/
theorem stepCommitsWholeOrLatchesOnly : Obligations.StepCommitsWholeOrLatchesOnly := by
  intro s t hr h
  rcases running_step hr h with ⟨-, rfl⟩ | ⟨-, -, rfl⟩ | ⟨i, -, ⟨u, -, rfl, hu⟩ | ⟨k, -, rfl⟩⟩
  · exact .inr ⟨_, rfl⟩
  · exact .inl hr.1
  · exact .inl hu
  · exact .inr ⟨k, rfl⟩

/-- When an instruction raises the fatal condition `k` at a state (the table of R221). -/
def Raises (i : Instr) (s : State) (k : Fault) : Prop :=
  match i with
  | .call _ => k = .stackOverflow ∧ s.sp = s.stackLimit
  | .ret => k = .stackUnderflow ∧ s.sp = 0
  | .drw _ _ n => k = .addressOutOfRange ∧ 0 < n.val ∧ lastAddress < s.i.toNat + n.val - 1
  | .ldBVx _ => k = .addressOutOfRange ∧ lastAddress < s.i.toNat + 2
  | .ldMemVx x => k = .addressOutOfRange ∧ lastAddress < s.i.toNat + x.val
  | .ldVxMem x => k = .addressOutOfRange ∧ lastAddress < s.i.toNat + x.val
  | .skp x => k = .keyIndexOutOfRange ∧ 15 < (s.reg x).toNat
  | .sknp x => k = .keyIndexOutOfRange ∧ 15 < (s.reg x).toNat
  | _ => False

theorem State.push_eq_error {s : State} {a : Word} {k : Fault} :
    s.push a = .error k ↔ k = .stackOverflow ∧ s.sp = s.stackLimit := by
  unfold State.push
  split_ifs with h <;> simp [h, eq_comm]

theorem State.pop_eq_error {s : State} {k : Fault} : s.pop = .error k ↔ k = .stackUnderflow ∧ s.sp = 0 := by
  by_cases h : s.sp = 0
  · rw [State.pop_empty h]
    simp [h, eq_comm]
  · obtain ⟨rest, a, ha⟩ := (List.eq_nil_or_concat s.stack).resolve_left fun hn => h (congrArg List.length hn)
    rw [State.pop_append (by simpa using ha)]
    simp [h]

theorem effect_eq_error {i : Instr} {s : State} {k : Fault} : effect i s = .error k ↔ Raises i s k := by
  cases i
  case ret => exact except_map_eq_error.trans State.pop_eq_error
  case call nnn => exact except_map_eq_error.trans State.push_eq_error
  case drw x y n =>
    refine except_map_eq_error.trans (State.readBytes_eq_error.trans (and_congr_right fun _ => ?_))
    simp only [State.indexed, lastAddress]
    omega
  case skp x | sknp x => exact except_map_eq_error.trans keyIndex_eq_error
  case ldBVx x =>
    have hne : decimalDigits (s.reg x) ≠ [] := List.cons_ne_nil _ _
    refine State.writeBytes_eq_error.trans (and_congr_right fun _ => (and_iff_right hne).trans ?_)
    simp only [State.indexed, decimalDigits, List.length_cons, List.length_nil, lastAddress]
    omega
  case ldMemVx x =>
    have hne : s.regsUpTo x ≠ [] := List.ne_nil_of_length_pos (by simp [State.length_regsUpTo])
    refine except_map_eq_error.trans
      (State.writeBytes_eq_error.trans (and_congr_right fun _ => (and_iff_right hne).trans ?_))
    simp only [State.indexed, State.length_regsUpTo, lastAddress]
    omega
  case ldVxMem x =>
    refine except_map_eq_error.trans (State.readBytes_eq_error.trans (and_congr_right fun _ => ?_))
    simp only [State.indexed, lastAddress]
    omega
  case ldVxK x =>
    refine iff_of_false (fun h => ?_) id
    simp only [effect] at h
    split at h <;> cases h
  all_goals simp [effect, Raises]

theorem State.Fetches.iff {s : State} {i j : Instr} (h : s.Fetches i) : s.Fetches j ↔ i = j :=
  ⟨h.unique, fun hij => hij ▸ h⟩

/-- Over a fetched instruction, the causes of R221 are what the instruction raises at the advanced PC. -/
theorem fatalCause_iff_raises {s : State} {i : Instr} {k : Fault} (hf : s.Fetches i) :
    FatalCause k s ↔ Raises i s.advance k := by
  constructor
  · intro h
    cases k
    case stackOverflow =>
      obtain ⟨nnn, hi, hfull⟩ := h
      cases hf.unique hi
      exact ⟨rfl, hfull⟩
    case stackUnderflow =>
      obtain ⟨hi, hempty⟩ := h
      cases hf.unique hi
      exact ⟨rfl, hempty⟩
    case pcOutOfRange => exact absurd hf.2.1 (Nat.not_le.mpr h)
    case addressOutOfRange =>
      obtain ⟨x, y, n, hi, hn, hbeyond⟩ | ⟨x, hi, hbeyond⟩ | ⟨x, hi | hi, hbeyond⟩ := h
      · cases hf.unique hi
        exact ⟨rfl, hn, hbeyond⟩
      all_goals
        cases hf.unique hi
        exact ⟨rfl, hbeyond⟩
    case keyIndexOutOfRange =>
      obtain ⟨x, hi | hi, hbeyond⟩ := h <;>
        · cases hf.unique hi
          exact ⟨rfl, hbeyond⟩
  · intro h
    cases i
    case call nnn =>
      obtain ⟨rfl, hfull⟩ := h
      exact ⟨nnn, hf, hfull⟩
    case ret =>
      obtain ⟨rfl, hempty⟩ := h
      exact ⟨hf, hempty⟩
    case drw x y n =>
      obtain ⟨rfl, hn, hbeyond⟩ := h
      exact .inl ⟨x, y, n, hf, hn, hbeyond⟩
    case ldBVx x =>
      obtain ⟨rfl, hbeyond⟩ := h
      exact .inr (.inl ⟨x, hf, hbeyond⟩)
    case ldMemVx x =>
      obtain ⟨rfl, hbeyond⟩ := h
      exact .inr (.inr ⟨x, .inl hf, hbeyond⟩)
    case ldVxMem x =>
      obtain ⟨rfl, hbeyond⟩ := h
      exact .inr (.inr ⟨x, .inr hf, hbeyond⟩)
    case skp x =>
      obtain ⟨rfl, hbeyond⟩ := h
      exact ⟨x, .inl hf, hbeyond⟩
    case sknp x =>
      obtain ⟨rfl, hbeyond⟩ := h
      exact ⟨x, .inr hf, hbeyond⟩
    all_goals exact h.elim

/-- Every cause but that of PcOutOfRange names the instruction that is fetched. -/
theorem fatalCause_fetches {s : State} {k : Fault} (h : FatalCause k s) :
    (k = .pcOutOfRange ∧ lastFetchAddress < s.pc.toNat) ∨ ∃ i, s.Fetches i := by
  cases k
  case stackOverflow =>
    obtain ⟨nnn, hi, -⟩ := h
    exact .inr ⟨_, hi⟩
  case stackUnderflow => exact .inr ⟨_, h.1⟩
  case pcOutOfRange => exact .inl ⟨rfl, h⟩
  case addressOutOfRange =>
    obtain ⟨x, y, n, hi, -⟩ | ⟨x, hi, -⟩ | ⟨x, hi | hi, -⟩ := h <;> exact .inr ⟨_, hi⟩
  case keyIndexOutOfRange =>
    obtain ⟨x, hi | hi, -⟩ := h <;> exact .inr ⟨_, hi⟩

theorem State.Fetches.pc_le {s : State} {i : Instr} (h : s.Fetches i) : s.pc.toNat ≤ lastFetchAddress := h.2.1

/-- Settles O13: a fetch beyond memory, a rejected word, and a fetched instruction, which raises exactly its own conditions. -/
theorem fatalConditionsHaveExactlyTheirCauses : Obligations.FatalConditionsHaveExactlyTheirCauses := by
  intro s t k hr h
  rcases running_step hr h with ⟨hpc, rfl⟩ | ⟨hpc, ⟨e, hd⟩, rfl⟩ | ⟨i, hf, ⟨u, hu, rfl, hnone⟩ | ⟨j, hj, rfl⟩⟩
  · constructor
    · intro hk
      cases hk
      exact hpc
    · intro hc
      obtain ⟨rfl, -⟩ | ⟨i, hi⟩ := fatalCause_fetches hc
      · rfl
      · exact absurd hi.pc_le (Nat.not_le.mpr hpc)
  · refine iff_of_false (by simp [hr.1]) fun hc => ?_
    obtain ⟨-, hbeyond⟩ | ⟨i, -, -, hi⟩ := fatalCause_fetches hc
    · exact absurd hpc (Nat.not_le.mpr hbeyond)
    · simp [hd] at hi
  · rw [fatalCause_iff_raises hf, ← effect_eq_error, hu]
    simp [hnone]
  · rw [fatalCause_iff_raises hf, ← effect_eq_error, hj]
    simp

/-! The tick (R96, R97, R186, R187) -/

/-- What the effect of an instruction leaves in DT: Vx for Fx15, DT otherwise. -/
theorem effect_dt {i : Instr} {s u : State} (h : effect i s = .ok u) :
    (∀ x, i = .ldDTVx x → u.dt = s.reg x) ∧ ((∀ x, i ≠ .ldDTVx x) → u.dt = s.dt) := by
  refine ⟨?_, fun hne => effect_delay h fun hp => ?_⟩
  · rintro x rfl
    cases h
    rfl
  · obtain ⟨x, hx⟩ := writes_delay_iff.mp hp
    exact hne x hx

/-- What the effect of an instruction leaves in ST: Vx for Fx18, ST otherwise. -/
theorem effect_st {i : Instr} {s u : State} (h : effect i s = .ok u) :
    (∀ x, i = .ldSTVx x → u.st = s.reg x) ∧ ((∀ x, i ≠ .ldSTVx x) → u.st = s.st) := by
  refine ⟨?_, fun hne => effect_sound h fun hp => ?_⟩
  · rintro x rfl
    cases h
    rfl
  · obtain ⟨x, hx⟩ := writes_sound_iff.mp hp
    exact hne x hx

/-- A completed cycle of a running machine ticks the advanced state over a rejected word, or the effect of the fetched
instruction on it, and its tone cue is that state's. -/
theorem completed_cycle {s : State} {c : Cycled} (hr : s.Running) (h : cycle s = .next c) (hnone : c.state.fault = none) :
    ∃ u, c.state = u.tick ∧ c.out.toneStop = u.toneStops ∧
      (((∀ i, ¬ s.Fetches i) ∧ u = s.advance) ∨ ∃ i, s.Fetches i ∧ effect i s.advance = .ok u) := by
  have next_inj {d : Cycled} (hd : cycle s = .next d) : c = d := Host.Outcome.next.inj (h.symm.trans hd)
  rcases Nat.lt_or_ge lastFetchAddress s.pc.toNat with hpc | hpc
  · rw [next_inj (cycle_beyond hr hpc)] at hnone
    cases hnone
  cases hd : decodeWord s.cfg.unlistedOps s.fetchWord with
  | error e =>
    rw [next_inj (cycle_rejected hr hpc hd), cycleEnd_completed _ (show s.advance.fault = none from hr.1)]
    exact ⟨_, rfl, rfl, .inl ⟨fun i hi => by simpa [hd] using hi.2.2, rfl⟩⟩
  | ok i =>
    have hf : s.Fetches i := ⟨hr, hpc, hd⟩
    obtain ⟨u, hu⟩ := exec_isNext i s.advance
    have hc := next_inj (cycle_fetches hf hu)
    obtain hok | ⟨k, -, rfl⟩ := exec_cases hu
    · have hfault : u.fault = none := (effect_keeps hok).2.2.trans hr.1
      rw [hc, cycleEnd_completed _ hfault]
      exact ⟨u, rfl, rfl, .inr ⟨i, hf, hok⟩⟩
    · rw [hc, cycleEnd_fatal _ (State.takeFatal_fault _ k)] at hnone
      cases hnone

/-- Settles O14: the tick counts down what the effect left. -/
theorem timersTickOncePerCompletedStep : Obligations.TimersTickOncePerCompletedStep := by
  intro s t hr h hnone
  obtain ⟨c, hc⟩ := cycle_isNext s
  obtain rfl : c.state = t := Host.Outcome.next.inj ((step_of_cycle hc).symm.trans h)
  obtain ⟨u, htick, -, ⟨hno, rfl⟩ | ⟨i, hf, hu⟩⟩ := completed_cycle hr hc hnone
  · rw [htick]
    exact ⟨fun x hx => absurd hx (hno _), fun _ => toNat_countDown _, fun x hx => absurd hx (hno _),
      fun _ => toNat_countDown _⟩
  · obtain ⟨hdt, hdt'⟩ := effect_dt hu
    obtain ⟨hst, hst'⟩ := effect_st hu
    simp only [hf.iff, htick, State.tick_dt, State.tick_st, toNat_countDown]
    exact ⟨fun x hx => by rw [hdt x hx]; rfl, fun hx => by rw [hdt' hx]; rfl, fun x hx => by rw [hst x hx]; rfl,
      fun hx => by rw [hst' hx]; rfl⟩

theorem State.toneStops_iff (s : State) : s.toneStops = true ↔ s.st.toNat = 1 := by
  rw [State.toneStops, beq_iff_eq, BitVec.toNat_eq]
  rfl

/-- Settles O15: the cue is that of the state the tick sees. -/
theorem toneStopExactlyWhenTheTickZeroesSound : Obligations.ToneStopExactlyWhenTheTickZeroesSound := by
  intro s c hr h hnone
  obtain ⟨u, -, htone, ⟨hno, rfl⟩ | ⟨i, hf, hu⟩⟩ := completed_cycle hr h hnone
  · rw [htone]
    exact ⟨fun x hx => absurd hx (hno _), fun _ => s.advance.toneStops_iff⟩
  · obtain ⟨hst, hst'⟩ := effect_st hu
    simp only [hf.iff, htone, State.toneStops_iff]
    exact ⟨fun x hx => by rw [hst x hx]; rfl, fun hx => by rw [hst' hx]; rfl⟩

end Sys2Proof.Machine
end

section
/-! PROOFS. Which steps may write which parts of the state, and that the keypad is seen by the key instructions alone
(spec/10_state.md R21-R39, spec/43_display.md R168, spec/60_exceptions.md R228). -/

namespace Sys2Proof.Machine

/-- Settles O20: no piece of a step writes the keypad or the configuration. -/
theorem stepNeverWritesKeypadOrConfiguration : Obligations.StepNeverWritesKeypadOrConfiguration := by
  intro s t h
  refine step_keeps (P := fun u => u.keys = s.keys ∧ u.cfg = s.cfg) h ⟨rfl, rfl⟩ (fun _ => ⟨rfl, rfl⟩)
    (fun _ i u hu => ?_) (fun _ hu => hu) (fun _ => ⟨rfl, rfl⟩) (fun _ _ => ⟨rfl, rfl⟩)
  obtain ⟨hcfg, hkeys, -⟩ := effect_keeps hu
  exact ⟨hkeys, hcfg⟩

/-! What a step that completes no instruction leaves, and the effect of the others -/

/-- Apart from the effect of a fetched instruction, a step writes at most a register and the key-wait (the resume), PC (a rejected
word), the timers (the tick) and the fault (a latch). -/
theorem step_frame {s t : State} (h : step s = .next t) :
    KeepsAllBut [.regs, .pc, .delay, .sound, .wait, .fault] s t ∨
      ∃ i u, s.Fetches i ∧ effect i s.advance = .ok u ∧ t = u.tick := by
  rcases step_cases h with ⟨k, -, rfl⟩ | ⟨x, -, -, ⟨-, rfl⟩ | ⟨k, -, rfl⟩⟩ | ⟨-, -, rfl⟩ | ⟨-, -, -, rfl⟩ | ⟨i, -, hf, -, -⟩
  case inr.inr.inr.inr =>
    rcases fetch_step hf h with ⟨u, hu, rfl, -⟩ | ⟨k, -, rfl⟩
    · exact .inr ⟨i, u, hf, hu, rfl⟩
    · exact .inl (keepsAllBut_of_taking rfl)
  all_goals exact .inl (keepsAllBut_of_taking rfl)

theorem State.byteAt_setBytes_outside (s : State) {a c : Nat} {bs : List Byte} (hc : c < a ∨ a + bs.length ≤ c) :
    (s.setBytes a bs).byteAt c = s.byteAt c := by
  rw [State.byteAt_setBytes]
  split_ifs with hle
  · rw [List.getElem?_eq_none (by omega), Option.getD_none]
  · rfl

theorem State.writeBytes_byteAt_outside {s t : State} {a c : Nat} {bs : List Byte} (h : s.writeBytes a bs = .ok t)
    (hc : c < a ∨ a + bs.length ≤ c) : t.byteAt c = s.byteAt c := by
  rw [(State.writeBytes_eq_ok h).1, State.byteAt_setBytes_outside s hc]

/-- Settles O21: only two effects write memory, each by one run of stores. -/
theorem onlyDecimalStoreAndDumpWriteMemory : Obligations.OnlyDecimalStoreAndDumpWriteMemory := by
  intro s t a h hne
  obtain hkeep | ⟨i, u, hf, hu, rfl⟩ := step_frame h
  · exact absurd (hkeep.memory.resolve_left (by decide) a) hne
  have hp : .memory ∈ writtenParts i := by
    by_contra hp
    have hkept := effect_byteAt hu hp a
    exact hne hkept
  obtain ⟨x, rfl⟩ | ⟨x, rfl⟩ := writes_memory_iff.mp hp
  · refine .inl ⟨x, hf, ?_⟩
    by_contra hout
    have hkept := State.writeBytes_byteAt_outside (c := a) hu (by simp [State.indexed, decimalDigits]; omega)
    exact hne hkept
  · refine .inr ⟨x, hf, ?_⟩
    obtain ⟨v, hw, rfl⟩ := except_map_eq_ok hu
    by_contra hout
    have hkept := State.writeBytes_byteAt_outside (c := a) hw (by simp [State.indexed, State.length_regsUpTo]; omega)
    exact hne hkept

/-- Settles O22: only two effects write the display, and both set the flag. -/
theorem onlyClearAndDrawTouchTheDisplay : Obligations.OnlyClearAndDrawTouchTheDisplay := by
  intro s t h
  refine ⟨fun hne => ?_, fun hf hnone => ?_⟩
  · obtain hkeep | ⟨i, u, hf, hu, rfl⟩ := step_frame h
    · obtain ⟨hdisp, hdirty⟩ := hkeep.display.resolve_left (by decide)
      exact (hne.elim (· hdisp) (· hdirty)).elim
    have hp : .display ∈ writtenParts i := by
      by_contra hp
      obtain ⟨hdisp, hdirty⟩ := effect_display hu hp
      exact hne.elim (· hdisp) (· hdirty)
    obtain rfl | ⟨x, y, n, rfl⟩ := writes_display_iff.mp hp
    · exact .inl hf
    · exact .inr ⟨x, y, n, hf⟩
  · obtain hf | ⟨x, y, n, hf⟩ := hf
    all_goals
      obtain ⟨u, hu, rfl, -⟩ | ⟨k, -, rfl⟩ := fetch_step hf h
      case inr => cases hnone
    · cases hu
      rfl
    · obtain ⟨bytes, -, rfl⟩ := except_map_eq_ok hu
      rfl

theorem effect_ldVxK_wait {x : Index} {s u : State} (h : effect (.ldVxK x) s = .ok u) :
    u.wait = s.wait ∨ (u.wait = some x ∧ ∀ k, s.keyDown k = false) := by
  simp only [effect] at h
  obtain ⟨k, hk, -⟩ | ⟨hnone, hup⟩ := leastDown_cases s.keys
  · rw [hk] at h
    cases h
    exact .inl rfl
  · rw [hnone] at h
    cases h
    exact .inr ⟨rfl, hup⟩

/-- A key-wait begins only with Fx0A and no key down (R36, R184). -/
theorem step_begins_wait {s t : State} {x : Index} (h : step s = .next t) (hs : s.wait = none) (ht : t.wait = some x) :
    s.Fetches (.ldVxK x) ∧ ∀ k, s.keyDown k = false := by
  rcases step_cases h with ⟨k, -, rfl⟩ | ⟨y, -, hy, -⟩ | ⟨-, -, rfl⟩ | ⟨-, -, -, rfl⟩ | ⟨i, -, hf, -, -⟩
  case inr.inr.inr.inr =>
    rcases fetch_step hf h with ⟨u, hu, rfl, -⟩ | ⟨k, -, rfl⟩
    · by_cases hp : .wait ∈ writtenParts i
      · obtain ⟨y, rfl⟩ := writes_wait_iff.mp hp
        obtain hw | ⟨hw, hup⟩ := effect_ldVxK_wait hu
        · simp [hw, hs] at ht
        · obtain rfl : y = x := by simpa [hw] using ht
          exact ⟨hf, hup⟩
      · simp [effect_wait hu hp, hs] at ht
    · simp [hs] at ht
  all_goals simp_all

/-- A key-wait goes on, or the resume ends it with some key down (R92). -/
theorem step_of_wait {s t : State} {x : Index} (h : step s = .next t) (hs : s.wait = some x) :
    t.wait = some x ∨ (t.wait = none ∧ s.fault = none ∧ ∃ k, s.keyDown k = true) := by
  rcases step_cases h with ⟨k, -, rfl⟩ | ⟨y, hfault, -, ⟨-, rfl⟩ | ⟨k, hk, rfl⟩⟩ | ⟨hr, -⟩ | ⟨hr, -⟩ | ⟨i, -, hf, -⟩
  · exact .inl hs
  · exact .inl hs
  · obtain ⟨j, -, hj, -⟩ | ⟨hnone, -⟩ := leastDown_cases s.keys
    · exact .inr ⟨rfl, hfault, j, hj⟩
    · simp [hk] at hnone
  · simp [hr.2] at hs
  · simp [hr.2] at hs
  · simp [hf.1.2] at hs

/-- Settles O23: the writers of the stack and of I among the effects, and the two ways of the key-wait. -/
theorem stackIndexAndWaitHaveOnlyTheirWriters : Obligations.StackIndexAndWaitHaveOnlyTheirWriters := by
  intro s t h
  refine ⟨fun hne => ?_, fun hne => ?_, fun x => step_begins_wait h, fun x => step_of_wait h⟩
  all_goals obtain hkeep | ⟨i, u, hf, hu, rfl⟩ := step_frame h
  · exact absurd (hkeep.stack.resolve_left (by decide)) hne
  · have hp : .stack ∈ writtenParts i := by
      by_contra hp
      have hkept := effect_stack hu hp
      exact hne hkept
    obtain rfl | ⟨nnn, rfl⟩ := writes_stack_iff.mp hp
    · exact .inl hf
    · exact .inr ⟨nnn, hf⟩
  · exact absurd (hkeep.index.resolve_left (by decide)) hne
  · have hp : .index ∈ writtenParts i := by
      by_contra hp
      have hkept := effect_index hu hp
      exact hne hkept
    obtain ⟨nnn, rfl⟩ | ⟨x, rfl | rfl | rfl | rfl⟩ := writes_index_iff.mp hp
    · exact .inl ⟨nnn, hf⟩
    · exact .inr ⟨x, .inl hf⟩
    · exact .inr ⟨x, .inr (.inl hf)⟩
    · exact .inr ⟨x, .inr (.inr (.inl hf))⟩
    · exact .inr ⟨x, .inr (.inr (.inr hf))⟩

/-! Destinations (R22, R39) -/

theorem State.reg_setReg_of_ne (s : State) {x r : Index} (b : Byte) (h : r ≠ x) : (s.setReg x b).reg r = s.reg r := by
  rw [State.reg_setReg, if_neg h]

theorem State.reg_setResultAndFlag_of_ne (s : State) {x r : Index} (result flag : Byte) (hx : r ≠ x) (hf : r ≠ vfIndex) :
    (s.setResultAndFlag x result flag).reg r = s.reg r := by
  rw [State.reg_setResultAndFlag, if_neg hf, if_neg hx]

theorem State.addI_reg (s : State) (k : Word) (r : Index) : (s.addI k).reg r = s.reg r := rfl

theorem State.reg_loadRegs (s : State) (bs : List Byte) (r : Index) :
    ({ s with v := loadRegs s.v 0 bs } : State).reg r = (bs[r.val]?).getD (s.reg r) :=
  getElem_loadRegs s.v 0 bs r.val r.isLt

theorem State.length_of_readBytes {s : State} {a n : Nat} {bs : List Byte} (h : s.readBytes a n = .ok bs) :
    bs.length = n := by
  by_cases hin : a + n ≤ lastAddress + 1 ∨ n = 0
  · rw [State.readBytes_inside s a n hin] at h
    cases h
    simp
  · rw [State.readBytes_beyond s a n (by omega) (by omega)] at h
    cases h

theorem effect_reg_of_not_destination {i : Instr} {s t : State} {r : Index} (h : effect i s = .ok t)
    (hr : r ∉ destinations i) : t.reg r = s.reg r := by
  cases i
  case ldImm | addImm | ldReg | orReg | andReg | xorReg | rnd | ldVxDT =>
    cases h
    exact State.reg_setReg_of_ne _ _ (List.ne_of_not_mem_cons hr)
  case addReg | subReg | shr | subn | shl =>
    cases h
    obtain ⟨hx, hf⟩ := not_or.mp (mt List.mem_cons.mpr hr)
    exact State.reg_setResultAndFlag_of_ne _ _ _ hx (List.ne_of_not_mem_cons hf)
  case drw x y n =>
    obtain ⟨bytes, -, rfl⟩ := except_map_eq_ok h
    exact State.reg_setReg_of_ne _ _ (List.ne_of_not_mem_cons hr)
  case ldVxK x =>
    simp only [effect] at h
    split at h <;> cases h
    · exact State.reg_setReg_of_ne _ _ (List.ne_of_not_mem_cons hr)
    · rfl
  case ldVxMem x =>
    obtain ⟨bytes, hb, rfl⟩ := except_map_eq_ok h
    have hlt : x.val < r.val := by simpa [destinations] using hr
    rw [State.addI_reg, State.reg_loadRegs, List.getElem?_eq_none (by rw [State.length_of_readBytes hb]; omega),
      Option.getD_none]
  all_goals exact effect_regs h (by simp [writtenParts]) r

/-- Settles O24: a fatal condition writes no register, the tick none, and an effect its destinations. -/
theorem registersChangeOnlyAsDestinations : Obligations.RegistersChangeOnlyAsDestinations := by
  intro s t i r hf h hr
  obtain ⟨u, hu, rfl, -⟩ | ⟨k, -, rfl⟩ := fetch_step hf h
  · have hkept := effect_reg_of_not_destination hu hr
    exact hkept
  · rfl

/-! The keypad (R35, R228) -/

/-- The state with the host's keypad flags replaced. -/
def State.withKeys (s : State) (keys : Vector Bool 16) : State := { s with keys := keys }

theorem State.readBytes_withKeys (s : State) (keys : Vector Bool 16) (a n : Nat) :
    (s.withKeys keys).readBytes a n = s.readBytes a n := by
  induction n generalizing a with
  | zero => rfl
  | succ n ih => rw [State.readBytes, State.readBytes, ih]; rfl

theorem State.writeBytes_withKeys (s : State) (keys : Vector Bool 16) (a : Nat) (bs : List Byte) :
    (s.withKeys keys).writeBytes a bs = (s.writeBytes a bs).map fun t => t.withKeys keys := by
  induction bs generalizing s a with
  | nil => rfl
  | cons b bs ih =>
    by_cases h : a ≤ lastAddress
    · rw [State.writeBytes, State.writeBytes, State.memWrite_inside b h, State.memWrite_inside b h]
      exact ih (s.setByte a b) (a + 1)
    · rw [State.writeBytes, State.writeBytes, State.memWrite_beyond b (by omega), State.memWrite_beyond b (by omega)]
      rfl

theorem except_map_map {ε α β γ : Type} (e : Except ε α) (f : α → β) (g : β → γ) :
    (e.map f).map g = e.map fun a => g (f a) := by
  cases e <;> rfl

/-- An effect that does not read the keypad is the same under every keypad. -/
theorem effect_withKeys {i : Instr} (hi : ¬ readsKeypad i) (s : State) (keys : Vector Bool 16) :
    effect i (s.withKeys keys) = (effect i s).map fun t => t.withKeys keys := by
  cases i
  case skp x => exact absurd ⟨x, .inl rfl⟩ hi
  case sknp x => exact absurd ⟨x, .inr (.inl rfl)⟩ hi
  case ldVxK x => exact absurd ⟨x, .inr (.inr rfl)⟩ hi
  case ret =>
    simp only [effect, State.pop, State.withKeys]
    cases s.stack.getLast? <;> rfl
  case call nnn =>
    by_cases h : s.sp = s.stackLimit
    · simp only [effect, State.push_full _ h, State.push_full (s := s.withKeys keys) _ h]
      rfl
    · simp only [effect, State.push_room _ h, State.push_room (s := s.withKeys keys) _ h]
      rfl
  case drw x y n | ldVxMem x =>
    simp only [effect, State.readBytes_withKeys, except_map_map]
    rfl
  case ldBVx x => exact State.writeBytes_withKeys ..
  case ldMemVx x =>
    simp only [effect, except_map_map]
    refine (congrArg (Except.map _) (State.writeBytes_withKeys s keys _ (s.regsUpTo x))).trans ?_
    rw [except_map_map]
    rfl
  case seImm | sneImm | seReg | sneReg =>
    simp only [effect, State.skipIf_eq]
    rfl
  all_goals rfl

/-- A fetching step whose effect is whole. -/
theorem step_of_effect {s u : State} {i : Instr} (hf : s.Fetches i) (h : effect i s.advance = .ok u) :
    step s = .next u.tick := by
  have hnone : u.fault = none := (effect_keeps h).2.2.trans hf.1.1
  rw [step_of_cycle (cycle_fetches hf (exec_of_effect h)), cycleEnd_completed _ hnone]

/-- A fetching step whose instruction raises. -/
theorem step_of_raised {s : State} {i : Instr} {k : Fault} (hf : s.Fetches i) (h : effect i s.advance = .error k) :
    step s = .next (s.latch k) := by
  rw [step_of_cycle (cycle_fetches hf (exec_of_raised h)), cycleEnd_fatal _ (State.takeFatal_fault _ k),
    State.takeFatal_advance]

/-- Settles O25: the case of the step is the same under both keypads, and so is the effect it runs. -/
theorem keypadMattersOnlyToKeyInstructions : Obligations.KeypadMattersOnlyToKeyInstructions := by
  intro s t keys hw hread h
  show step (s.withKeys keys) = .next (t.withKeys keys)
  rcases step_cases h with ⟨k, hk, ht⟩ | ⟨x, -, hx, -⟩ | ⟨hr, hpc, rfl⟩ | ⟨hr, hpc, ⟨e, he⟩, rfl⟩ | ⟨i, -, hf, -, -⟩
  · rw [ht]
    exact step_of_cycle (cycle_halted (s := s.withKeys keys) hk)
  · simp [hw] at hx
  · exact step_of_cycle (cycle_beyond (s := s.withKeys keys) hr hpc)
  · rw [step_of_cycle (cycle_rejected (s := s.withKeys keys) hr hpc he), cycleEnd_completed]
    · rfl
    · exact hr.1
  · have hf' : (s.withKeys keys).Fetches i := hf
    have heffect : effect i (s.withKeys keys).advance = (effect i s.advance).map fun u => u.withKeys keys :=
      effect_withKeys (hread i hf) s.advance keys
    obtain ⟨u, hu, rfl, -⟩ | ⟨k, hk, rfl⟩ := fetch_step hf h
    · rw [hu] at heffect
      exact step_of_effect hf' heffect
    · rw [hk] at heffect
      exact step_of_raised hf' heffect

end Sys2Proof.Machine
end

section
/-! PROOFS. Logic, the reverse subtraction, the shifts and RND (spec/42_alu.md R134-R136, R139-R142). -/

namespace Sys2Proof.Machine

/-! Bitwise results (R134-R136) -/

/-- An instruction that is one register write gives Vx the bits of its result and leaves every other register. -/
theorem exec_setReg_bits {i : Instr} {s : State} {x : Index} {result : Byte} {bits : Nat → Bool}
    (hexec : exec i s = .next (s.setReg x result)) (hbits : ∀ b, result.getLsbD b = bits b) :
    ∃ t, exec i s = .next t ∧ KeepsAllBut [.regs] s t ∧ (∀ r, r ≠ x → t.reg r = s.reg r) ∧
      ∀ b, (t.reg x).getLsbD b = bits b := by
  obtain ⟨hregs, hframe⟩ := s.writesResult_setReg x result
  refine ⟨_, hexec, hframe, fun r hr => s.reg_setReg_of_ne result hr, fun b => ?_⟩
  rw [hregs, if_pos rfl, hbits]

theorem exec_orReg (x y : Index) (s : State) : exec (.orReg x y) s = .next (s.setReg x (s.reg x ||| s.reg y)) := rfl

theorem exec_andReg (x y : Index) (s : State) : exec (.andReg x y) s = .next (s.setReg x (s.reg x &&& s.reg y)) := rfl

theorem exec_xorReg (x y : Index) (s : State) : exec (.xorReg x y) s = .next (s.setReg x (s.reg x ^^^ s.reg y)) := rfl

/-- Settles O29: each instruction is one register write of the bitwise result. -/
theorem logicalOperationsAreBitwise : Obligations.LogicalOperationsAreBitwise := fun x y s =>
  ⟨exec_setReg_bits (exec_orReg x y s) fun _ => BitVec.getLsbD_or,
    exec_setReg_bits (exec_andReg x y s) fun _ => BitVec.getLsbD_and,
    exec_setReg_bits (exec_xorReg x y s) fun _ => BitVec.getLsbD_xor⟩

/-! The shifts (R139, R141) -/

theorem halve_toNat (b : Byte) : (halve b).toNat = b.toNat / 2 := by
  rw [halve, BitVec.toNat_ofNat, Nat.mod_eq_of_lt (by omega)]

theorem double_toNat (b : Byte) : (double b).toNat = 2 * b.toNat % 256 := BitVec.toNat_ofNat _ _

theorem flagByte_toNat {f : Bool} {p : Prop} [Decidable p] (h : f = true ↔ p) :
    (flagByte f).toNat = if p then 1 else 0 := by
  by_cases hp : p
  · rw [h.mpr hp, if_pos hp]
    rfl
  · rw [Bool.eq_false_iff.mpr (mt h.mp hp), if_neg hp]
    rfl

theorem shiftRightFlag_source_toNat (b : Byte) :
    (shiftRightFlag .source b).toNat = if b.toNat % 16 = 1 then 1 else 0 := by
  have hmask : b.toNat &&& 15 = b.toNat % 16 := Nat.and_two_pow_sub_one_eq_mod _ 4
  refine flagByte_toNat ?_
  simp [BitVec.toNat_eq, hmask]

theorem shiftRightFlag_canonical_toNat (b : Byte) : (shiftRightFlag .canonical b).toNat = b.toNat % 2 := by
  rw [shiftRightFlag, BitVec.toNat_and]
  exact Nat.and_one_is_mod _

/-- The high nibble is a multiple of 16, so the flag of `source` is never set (R141). -/
theorem shiftLeftFlag_source (b : Byte) : shiftLeftFlag .source b = 0 := by
  have hne : (b &&& 0xF0 == 1) = false := by
    refine beq_false_of_ne fun h => ?_
    have hbit := congrArg (fun w : Byte => w.getLsbD 0) h
    simp at hbit
  rw [shiftLeftFlag, hne]
  rfl

theorem shiftLeftFlag_canonical_toNat (b : Byte) : (shiftLeftFlag .canonical b).toNat = b.toNat / 128 := by
  have hb : b.toNat < 256 := b.isLt
  rw [shiftLeftFlag, BitVec.toNat_and, BitVec.toNat_ushiftRight, Nat.shiftRight_eq_div_pow]
  exact (Nat.and_one_is_mod _).trans (Nat.mod_eq_of_lt (by omega))

theorem exec_shr (x y : Index) (s : State) : exec (.shr x y) s =
    .next (s.setResultAndFlag x (halve (s.reg x)) (shiftRightFlag s.cfg.shiftFlagMode (s.reg x))) := rfl

theorem exec_shl (x y : Index) (s : State) : exec (.shl x y) s =
    .next (s.setResultAndFlag x (double (s.reg y)) (shiftLeftFlag s.cfg.shiftFlagMode (s.reg y))) := rfl

/-- Settles O32: the result is half of Vx and the flag that of the mode. -/
theorem shiftRightHalvesWithModeFlag : Obligations.ShiftRightHalvesWithModeFlag := fun x y s =>
  ⟨_, exec_shr x y s, _, _, s.writesResultAndFlag_setResultAndFlag x _ _, halve_toNat _,
    fun h => by rw [h, shiftRightFlag_source_toNat], fun h => by rw [h, shiftRightFlag_canonical_toNat]⟩

/-- Settles O34: the result is twice Vy and the flag that of the mode. -/
theorem shiftLeftDoublesWithModeFlag : Obligations.ShiftLeftDoublesWithModeFlag := fun x y s =>
  ⟨_, exec_shl x y s, _, _, s.writesResultAndFlag_setResultAndFlag x _ _, double_toNat _,
    fun h => by rw [h, shiftLeftFlag_source], fun h => by rw [h, shiftLeftFlag_canonical_toNat]⟩

/-! The reverse subtraction (R140) -/

/-- The machine's subtraction is the integer difference modulo 256. -/
theorem sub_toNat_eq_emod (a b : Byte) : ((a - b).toNat : Int) = (a.toNat - b.toNat : Int) % 256 := by
  rw [BitVec.toNat_sub]
  omega

theorem exec_subn (x y : Index) (s : State) : exec (.subn x y) s =
    .next (s.setResultAndFlag x (subReverse s.cfg.subnUnderflow (s.reg x) (s.reg y))
      (notBorrowFlag (s.reg y) (s.reg x))) := rfl

/-- Settles O33: the result is the difference in the mode of the configuration and the flag the strict comparison. -/
theorem reverseSubtractFollowsUnderflowMode : Obligations.ReverseSubtractFollowsUnderflowMode := fun x y s =>
  ⟨_, exec_subn x y s, _, _, s.writesResultAndFlag_setResultAndFlag x _ _,
    fun h => by rw [h]; exact subSaturate_toNat _ _, fun h => by rw [h]; exact sub_toNat_eq_emod _ _,
    notBorrowFlag_toNat _ _⟩

/-! RND (R142) -/

theorem exec_rnd (x : Index) (kk : Byte) (s : State) : exec (.rnd x kk) s =
    .next (({ s with draws := s.draws + 1 } : State).setReg x (Config.freeByte s.draws &&& kk)) := rfl

/-- Settles O35: Vx is the free byte masked, bit by bit. -/
theorem randomIsTheFreeDrawMasked : Obligations.RandomIsTheFreeDrawMasked := by
  intro x kk s
  have hx : (({ s with draws := s.draws + 1 } : State).setReg x (Config.freeByte s.draws &&& kk)).reg x =
      Config.freeByte s.draws &&& kk := by rw [State.reg_setReg, if_pos rfl]
  refine ⟨_, exec_rnd x kk s, rfl, fun r hr => State.reg_setReg_of_ne _ _ hr, fun b hb => ?_, fun b hb => ?_,
    effect_keepsAllBut (i := .rnd x kk) rfl⟩
  · rw [hx, BitVec.getLsbD_and, hb, Bool.and_false]
  · rw [hx, BitVec.getLsbD_and, hb, Bool.and_true]

end Sys2Proof.Machine
end

section
/-! PROOFS. Jumps, calls, returns, register skips and key skips (spec/41_control_flow.md R110-R118, spec/44_timers_keys.md
R180-R182). -/

namespace Sys2Proof.Machine

/-! Jumps, calls and returns -/

theorem nextFetchChecksPc (t : State) : NextFetchChecksPc t := fun hr hpc => step_of_cycle (cycle_beyond hr hpc)

/-- Settles O36: both jumps replace PC, by the zero-extended address or its sum with V0. -/
theorem jumpsReplaceThePc : Obligations.JumpsReplaceThePc := fun nnn _ =>
  ⟨⟨_, exec_of_effect (i := .jp nnn) rfl, addrWord_toNat nnn, effect_keepsAllBut (i := .jp nnn) rfl, nextFetchChecksPc _⟩,
    ⟨_, exec_of_effect (i := .jpV0 nnn) rfl, addrWord_add_byteWord_toNat nnn _, effect_keepsAllBut (i := .jpV0 nnn) rfl,
      nextFetchChecksPc _⟩⟩

/-- The state after a CALL with room left: the advanced PC pushed and the target in PC (R113). -/
def State.called (s : State) (nnn : Addr12) : State := ({ s with stack := s.stack ++ [s.pc] } : State).jump (addrWord nnn)

@[simp] theorem State.called_v (s : State) (nnn : Addr12) : (s.called nnn).v = s.v := rfl
@[simp] theorem State.called_dt (s : State) (nnn : Addr12) : (s.called nnn).dt = s.dt := rfl
@[simp] theorem State.called_st (s : State) (nnn : Addr12) : (s.called nnn).st = s.st := rfl
@[simp] theorem State.called_fault (s : State) (nnn : Addr12) : (s.called nnn).fault = s.fault := rfl

theorem effect_call_of_room {s : State} (nnn : Addr12) (h : s.sp ≠ s.stackLimit) :
    effect (.call nnn) s = .ok (s.called nnn) := by
  rw [effect, State.push_room _ h]
  rfl

/-- Settles O37: the push with room left, and StackOverflow without. -/
theorem callPushesReturnAddressOrOverflows : Obligations.CallPushesReturnAddressOrOverflows := by
  refine fun nnn s => ⟨fun hroom => ?_, fun hfull => exec_aborts (effect_eq_error.mpr ⟨rfl, hfull⟩)⟩
  have heffect := effect_call_of_room nnn hroom
  exact ⟨_, exec_of_effect heffect, rfl, List.length_append, addrWord_toNat nnn, effect_keepsAllBut heffect⟩

/-- The state after a RET: `a` popped into PC and `rest` left on the stack (R111). -/
def State.returned (s : State) (rest : List Word) (a : Word) : State := ({ s with stack := rest } : State).jump a

@[simp] theorem State.returned_v (s : State) (rest : List Word) (a : Word) : (s.returned rest a).v = s.v := rfl
@[simp] theorem State.returned_dt (s : State) (rest : List Word) (a : Word) : (s.returned rest a).dt = s.dt := rfl
@[simp] theorem State.returned_st (s : State) (rest : List Word) (a : Word) : (s.returned rest a).st = s.st := rfl
@[simp] theorem State.returned_fault (s : State) (rest : List Word) (a : Word) : (s.returned rest a).fault = s.fault := rfl
@[simp] theorem State.returned_pc (s : State) (rest : List Word) (a : Word) : (s.returned rest a).pc = a := rfl
@[simp] theorem State.returned_stack (s : State) (rest : List Word) (a : Word) : (s.returned rest a).stack = rest := rfl

theorem effect_ret_of_append {s : State} {rest : List Word} {a : Word} (h : s.stack = rest ++ [a]) :
    effect .ret s = .ok (s.returned rest a) := by
  rw [effect, State.pop_append h]
  rfl

/-- Settles O38: the pop of the last address, and StackUnderflow with none. -/
theorem returnPopsLastAddressOrUnderflows : Obligations.ReturnPopsLastAddressOrUnderflows := by
  refine ⟨fun s rest a hstack => ?_, fun s hempty => exec_aborts (effect_eq_error.mpr ⟨rfl, hempty⟩)⟩
  have heffect := effect_ret_of_append hstack
  have hsp : s.sp = rest.length + 1 := by rw [State.sp, hstack, List.length_append]; rfl
  exact ⟨_, exec_of_effect heffect, rfl, rfl, hsp.symm, effect_keepsAllBut heffect, nextFetchChecksPc _⟩

/-! Skips -/

theorem exec_seReg (x y : Index) (s : State) : exec (.seReg x y) s = .next (s.skipIf (s.reg x == s.reg y)) := rfl

theorem exec_sneReg (x y : Index) (s : State) : exec (.sneReg x y) s = .next (s.skipIf (s.reg x != s.reg y)) := rfl

/-- Settles O40: both are conditional skips; their reserved words are among those of R80. -/
theorem registerSkipsCompareRegisters : Obligations.RegisterSkipsCompareRegisters := by
  refine ⟨fun x y s => ⟨exec_skipIf_spec (exec_seReg x y s) beq_iff_eq, exec_skipIf_spec (exec_sneReg x y s) bne_iff_ne⟩,
    fun ops w hfamily hn => (unrecognizedWordsAreExactlyThoseListed ops w).mpr ?_⟩
  obtain h5 | h9 := hfamily
  · exact .inr (.inl ⟨h5, hn⟩)
  · exact .inr (.inr (.inr (.inl ⟨h9, hn⟩)))

theorem exec_skp {x k : Index} {s : State} (h : (s.reg x).toNat = k.val) :
    exec (.skp x) s = .next (s.skipIf (s.keyDown k)) := by
  refine exec_of_effect ?_
  rw [effect, keyIndex_inside h]
  rfl

theorem exec_sknp {x k : Index} {s : State} (h : (s.reg x).toNat = k.val) :
    exec (.sknp x) s = .next (s.skipIf (!s.keyDown k)) := by
  refine exec_of_effect ?_
  rw [effect, keyIndex_inside h]
  rfl

/-- Settles O41: skips on the key of Vx, or KeyIndexOutOfRange. -/
theorem keySkipsTestTheKeyOrAbort : Obligations.KeySkipsTestTheKeyOrAbort := fun x s =>
  ⟨fun k hk => ⟨exec_skipIf_spec (exec_skp hk) Iff.rfl, exec_skipIf_spec (exec_sknp hk) (by simp)⟩,
    fun hbeyond => ⟨exec_aborts (effect_eq_error.mpr ⟨rfl, hbeyond⟩), exec_aborts (effect_eq_error.mpr ⟨rfl, hbeyond⟩)⟩⟩

/-! Timer moves and Fx0A (R183-R187) -/

/-- Settles O47: one register write, and one write of each timer. -/
theorem timerMovesCopyTheRegisters : Obligations.TimerMovesCopyTheRegisters := fun x s =>
  ⟨⟨_, exec_of_effect (i := .ldVxDT x) rfl, s.writesResult_setReg x s.dt⟩,
    ⟨_, exec_of_effect (i := .ldDTVx x) rfl, rfl, effect_keepsAllBut (i := .ldDTVx x) rfl⟩,
    ⟨_, exec_of_effect (i := .ldSTVx x) rfl, rfl, effect_keepsAllBut (i := .ldSTVx x) rfl⟩⟩

/-- Settles O48: the key scan finds the least key that is down, or none. -/
theorem waitForKeyTakesLeastKeyOrWaits : Obligations.WaitForKeyTakesLeastKeyOrWaits := by
  refine fun x s => ⟨fun k hk hlt => ?_, fun hup => ?_⟩
  · refine ⟨s.setReg x (BitVec.ofNat 8 k.val), ?_, keepsAllBut_regs s _, s.setReg_key_toNat x k⟩
    rw [exec, execLdVxK, leastDown_eq_some hk hlt]
  · refine ⟨{ s with wait := some x }, ?_, rfl, keepsAllBut_of_taking rfl⟩
    rw [exec, execLdVxK, leastDown_eq_none hup]

end Sys2Proof.Machine
end

section
/-! PROOFS. The index register and the instructions that store and load blocks of memory (spec/43_display.md R165,
spec/45_index_memory.md R200-R204). -/

namespace Sys2Proof.Machine

/-! Annn and Fx29 -/

theorem fontAddress_times5_toNat (b : Byte) : (fontAddress .times5 b).toNat = b.toNat * 5 := by
  rw [fontAddress, BitVec.toNat_ofNat, Nat.mod_eq_of_lt (by omega)]

theorem fontAddress_lowNibble_toNat (b : Byte) : (fontAddress .lowNibble b).toNat = b.toNat % 16 * 5 := by
  rw [fontAddress, BitVec.toNat_ofNat, Nat.mod_eq_of_lt (by omega)]

/-- For a hexadecimal digit both modes give the address of its glyph (R165). -/
theorem fontAddress_digit_toNat (mode : FontAddrMode) {b : Byte} (h : b.toNat ≤ 15) :
    (fontAddress mode b).toNat = 5 * b.toNat := by
  cases mode
  · rw [fontAddress_times5_toNat, Nat.mul_comm]
  · rw [fontAddress_lowNibble_toNat, Nat.mod_eq_of_lt (by omega), Nat.mul_comm]

/-- Settles O46: both instructions are one write of I. -/
theorem indexLoadsAndGlyphAddresses : Obligations.IndexLoadsAndGlyphAddresses := fun nnn x s =>
  ⟨⟨_, exec_of_effect (i := .ldI nnn) rfl, addrWord_toNat nnn, effect_keepsAllBut (i := .ldI nnn) rfl⟩,
    ⟨_, exec_of_effect (i := .ldFVx x) rfl, effect_keepsAllBut (i := .ldFVx x) rfl,
      fun h => by rw [State.setI_i, h, fontAddress_times5_toNat],
      fun h => by rw [State.setI_i, h, fontAddress_lowNibble_toNat], fontAddress_digit_toNat s.cfg.fontAddrMode⟩⟩

/-! Runs of bytes from I -/

theorem State.byteAt_setBytes_inside (s : State) (a : Nat) {bs : List Byte} {k : Nat} {b : Byte} (h : bs[k]? = some b) :
    (s.setBytes a bs).byteAt (a + k) = b := by
  rw [State.byteAt_setBytes, if_pos (Nat.le_add_right a k), Nat.add_sub_cancel_left, h, Option.getD_some]

/-- The `n` bytes from I upward, what a checked read of them gives. -/
def State.bytesFromI (s : State) (n : Nat) : List Byte := (List.range n).map fun j => s.byteAt (s.indexed j)

theorem State.length_bytesFromI (s : State) (n : Nat) : (s.bytesFromI n).length = n := by
  rw [State.bytesFromI, List.length_map, List.length_range]

theorem State.getElem?_bytesFromI (s : State) (n j : Nat) :
    (s.bytesFromI n)[j]? = if j < n then some (s.byteAt (s.indexed j)) else none := by
  split_ifs with h <;> simp [State.bytesFromI, h]

theorem State.readBytes_fromI {s : State} {n : Nat} (h : s.indexed 0 + n ≤ lastAddress + 1 ∨ n = 0) :
    s.readBytes (s.indexed 0) n = .ok (s.bytesFromI n) := State.readBytes_inside s _ n h

/-! Fx33 -/

theorem decimalDigits_spec (b : Byte) : ∃ hundreds tens ones : Byte, decimalDigits b = [hundreds, tens, ones] ∧
    100 * hundreds.toNat + 10 * tens.toNat + ones.toNat = b.toNat ∧ tens.toNat ≤ 9 ∧ ones.toNat ≤ 9 := by
  have hb : b.toNat < 256 := b.isLt
  refine ⟨_, _, _, rfl, ?_⟩
  simp only [BitVec.toNat_ofNat]
  omega

theorem effect_ldBVx_inside {x : Index} {s : State} (h : s.indexed 2 ≤ 0xFFF) :
    effect (.ldBVx x) s = .ok (s.setBytes (s.indexed 0) (decimalDigits (s.reg x))) :=
  State.writeBytes_inside _ _ _ (.inl (Nat.succ_le_succ h))

/-- Settles O50: one run of three stores, the digits of Vx. -/
theorem decimalStoreWritesThreeDigitsOrAborts : Obligations.DecimalStoreWritesThreeDigitsOrAborts := by
  refine fun x s => ⟨fun hin => ?_, fun hbeyond => exec_aborts (effect_eq_error.mpr ⟨rfl, hbeyond⟩)⟩
  have heffect := effect_ldBVx_inside (x := x) hin
  obtain ⟨hundreds, tens, ones, hdigits, hsum, htens, hones⟩ := decimalDigits_spec (s.reg x)
  rw [hdigits] at heffect
  have h0 : (s.setBytes (s.indexed 0) [hundreds, tens, ones]).byteAt (s.indexed 0) = hundreds :=
    s.byteAt_setBytes_inside (s.indexed 0) (k := 0) rfl
  have h1 : (s.setBytes (s.indexed 0) [hundreds, tens, ones]).byteAt (s.indexed 1) = tens :=
    s.byteAt_setBytes_inside (s.indexed 0) (k := 1) rfl
  have h2 : (s.setBytes (s.indexed 0) [hundreds, tens, ones]).byteAt (s.indexed 2) = ones :=
    s.byteAt_setBytes_inside (s.indexed 0) (k := 2) rfl
  refine ⟨_, exec_of_effect heffect, ?_⟩
  rw [h0, h1, h2]
  exact ⟨hsum, htens, hones, fun a ha => s.byteAt_setBytes_outside (ha.imp_right Nat.succ_le_of_lt),
    effect_keepsAllBut heffect⟩

/-! Fx55 -/

theorem State.addI_blockLength_toNat (s : State) (x : Index) :
    (s.addI (BitVec.ofNat 16 (x.val + 1))).i.toNat = (s.i.toNat + x.val + 1) % 65536 := by
  rw [State.addI_i_toNat, BitVec.toNat_ofNat, Nat.mod_eq_of_lt (by omega : x.val + 1 < 2 ^ 16), Nat.add_assoc]

theorem effect_ldMemVx_inside {x : Index} {s : State} (h : s.indexed x.val ≤ 0xFFF) : effect (.ldMemVx x) s =
    .ok ((s.setBytes (s.indexed 0) (s.regsUpTo x)).addI (BitVec.ofNat 16 (x.val + 1))) := by
  have hfit : s.indexed 0 + (s.regsUpTo x).length ≤ lastAddress + 1 := by
    rw [State.length_regsUpTo]
    exact Nat.succ_le_succ h
  rw [effect, State.writeBytes_inside _ _ _ (.inl hfit)]
  rfl

/-- Settles O51: one run of x + 1 stores, the registers ascending, and the advance of I. -/
theorem registerDumpStoresAscendingOrAborts : Obligations.RegisterDumpStoresAscendingOrAborts := by
  refine fun x s => ⟨fun hin => ?_, fun hbeyond => exec_aborts (effect_eq_error.mpr ⟨rfl, hbeyond⟩)⟩
  have heffect := effect_ldMemVx_inside hin
  refine ⟨_, exec_of_effect heffect, fun r hr => ?_, fun a ha => s.byteAt_setBytes_outside ?_, ?_,
    effect_keepsAllBut heffect⟩
  · exact s.byteAt_setBytes_inside (s.indexed 0) (by rw [State.getElem?_regsUpTo, if_pos hr])
  · rw [State.length_regsUpTo]
    exact ha.imp_right Nat.succ_le_of_lt
  · rw [State.addI_blockLength_toNat, State.setBytes_eq]

/-! Fx65 -/

theorem effect_ldVxMem_inside {x : Index} {s : State} (h : s.indexed x.val ≤ 0xFFF) : effect (.ldVxMem x) s =
    .ok (({ s with v := loadRegs s.v 0 (s.bytesFromI (x.val + 1)) } : State).addI (BitVec.ofNat 16 (x.val + 1))) := by
  rw [effect, State.readBytes_fromI (.inl (Nat.succ_le_succ h))]
  rfl

/-- Settles O52: one block load, byte r of the block into Vr, and the advance of I. -/
theorem registerLoadReadsAscendingOrAborts : Obligations.RegisterLoadReadsAscendingOrAborts := by
  refine fun x s => ⟨fun hin => ?_, fun hbeyond => exec_aborts (effect_eq_error.mpr ⟨rfl, hbeyond⟩)⟩
  have heffect := effect_ldVxMem_inside hin
  refine ⟨_, exec_of_effect heffect, fun r => ?_, State.addI_blockLength_toNat _ x, effect_keepsAllBut heffect⟩
  simp only [State.addI_reg, State.reg_loadRegs, State.getElem?_bytesFromI, Nat.lt_succ_iff, Fin.le_def]
  split_ifs <;> rfl

/-- Settles O53: the load reads, at the first I, the bytes the dump stored there. -/
theorem dumpThenLoadRestoresTheRegisters : Obligations.DumpThenLoadRestoresTheRegisters := by
  intro x s t u v hin hdump hi hcfg hmem hload
  obtain ⟨t', hdump', hstored, -⟩ := (registerDumpStoresAscendingOrAborts x s).1 hin
  obtain rfl : t' = t := Host.Outcome.next.inj (hdump'.symm.trans hdump)
  have hindexed (k : Nat) : u.indexed k = s.indexed k := by rw [State.indexed, State.indexed, hi]
  obtain ⟨v', hload', hregs, -⟩ := (registerLoadReadsAscendingOrAborts x u).1 ((hindexed _).trans_le hin)
  obtain rfl : v' = v := Host.Outcome.next.inj (hload'.symm.trans hload)
  refine ⟨fun r hr => ?_, fun r hr => ?_⟩
  · rw [hregs, if_pos hr, hindexed, State.byteAt_congr hcfg hmem, hstored r hr]
  · rw [hregs, if_neg (not_le.mpr hr)]

end Sys2Proof.Machine
end

section
/-! PROOFS. The display: CLS, and DRW as the toggling of a list of distinct cells (spec/43_display.md R160-R164). -/

namespace Sys2Proof.Machine

/-- Settles O42: every cell of the blank display is 0. -/
theorem clearScreenClearsEveryCell : Obligations.ClearScreenClearsEveryCell := fun _ =>
  ⟨_, exec_of_effect (i := .cls) rfl, rfl, fun r c _ _ => pixel_blankDisplay r c, effect_keepsAllBut (i := .cls) rfl⟩

/-- Settles O44: the read of the sprite raises. -/
theorem drawBeyondMemoryAborts : Obligations.DrawBeyondMemoryAborts := fun _ _ _ _ hn hbeyond =>
  exec_aborts (effect_eq_error.mpr ⟨rfl, hn, hbeyond⟩)

/-! A sprite as the list of its cells -/

/-- Toggle one cell of the canvas and note whether it was 1 (R162). -/
def toggleCell (cv : Canvas) (p : Nat × Nat) : Canvas := (togglePixel cv.1 p.1 p.2, cv.2 || pixel cv.1 p.1 p.2)

/-- The cells under the set bits of one row, from left to right, not yet reduced into the buffer. -/
def rowCells (b : Byte) (row col : Nat) : List (Nat × Nat) :=
  ((List.range 8).filter (spriteBit b)).map fun k => (row, col + k)

/-- The cells under the set bits of a sprite, in the order they are drawn. -/
def spriteCells (row col : Nat) : List Byte → List (Nat × Nat)
  | [] => []
  | b :: bs => rowCells b row col ++ spriteCells (row + 1) col bs

theorem drawRow_eq_foldl (b : Byte) (row col : Nat) (cv : Canvas) :
    drawRow b row col cv = (rowCells b row col).foldl toggleCell cv := by
  rw [drawRow, rowCells, List.foldl_map, List.foldl_filter]
  rfl

theorem drawSprite_eq_foldl (row col : Nat) (bs : List Byte) (cv : Canvas) :
    drawSprite row col bs cv = (spriteCells row col bs).foldl toggleCell cv := by
  induction bs generalizing row cv with
  | nil => rfl
  | cons b bs ih => rw [drawSprite, ih, drawRow_eq_foldl, spriteCells, List.foldl_append]

/-- Two cells stand for the same place of the buffer, both coordinates reduced (R162). -/
def SameCell (p q : Nat × Nat) : Prop := p.1 % 32 = q.1 % 32 ∧ p.2 % 64 = q.2 % 64

theorem SameCell.symm {p q : Nat × Nat} (h : SameCell p q) : SameCell q p := ⟨h.1.symm, h.2.symm⟩

theorem pixel_sameCell {p q : Nat × Nat} (h : SameCell p q) (d : Display) : pixel d p.1 p.2 = pixel d q.1 q.2 := by
  simp only [pixel, h.1, h.2]

theorem mem_rowCells {b : Byte} {row col : Nat} {p : Nat × Nat} :
    p ∈ rowCells b row col ↔ ∃ k, k < 8 ∧ spriteBit b k = true ∧ (row, col + k) = p := by
  simp [rowCells, and_assoc]

theorem mem_spriteCells {row col : Nat} {bs : List Byte} {p : Nat × Nat} :
    p ∈ spriteCells row col bs ↔
      ∃ j k b, bs[j]? = some b ∧ k < 8 ∧ spriteBit b k = true ∧ (row + j, col + k) = p := by
  induction bs generalizing row with
  | nil => simp [spriteCells]
  | cons b bs ih =>
    rw [spriteCells, List.mem_append, mem_rowCells, ih]
    constructor
    · rintro (⟨k, hk⟩ | ⟨j, k, c, hc, hk, hbit, rfl⟩)
      · exact ⟨0, k, b, rfl, hk⟩
      · exact ⟨j + 1, k, c, hc, hk, hbit, by rw [Nat.add_right_comm, Nat.add_assoc]⟩
    · rintro ⟨_ | j, k, c, hc, hk, hbit, rfl⟩
      · obtain rfl : b = c := by simpa using hc
        exact .inl ⟨k, hk, hbit, rfl⟩
      · exact .inr ⟨j, k, c, hc, hk, hbit, by rw [Nat.add_right_comm, Nat.add_assoc]⟩

/-- A row is 8 columns wide and a sprite at most 32 rows high, so no place of the buffer is drawn twice. -/
theorem spriteCells_pairwise (row col : Nat) (bs : List Byte) (h : bs.length ≤ 32) :
    (spriteCells row col bs).Pairwise fun p q => ¬ SameCell p q := by
  induction bs generalizing row with
  | nil => exact .nil
  | cons b bs ih =>
    have hlen : bs.length + 1 ≤ 32 := h
    refine List.pairwise_append.mpr ⟨?_, ih (row + 1) (by omega), fun p hp q hq hsame => ?_⟩
    · refine List.pairwise_map.mpr ((List.pairwise_lt_range.filter _).imp_of_mem fun hk hl hlt hsame => ?_)
      have hk8 := List.mem_range.mp (List.mem_of_mem_filter hk)
      have hl8 := List.mem_range.mp (List.mem_of_mem_filter hl)
      obtain ⟨-, hcol⟩ := hsame
      dsimp only at hcol
      omega
    · obtain ⟨k, -, -, rfl⟩ := mem_rowCells.mp hp
      obtain ⟨j, l, c, hc, -, -, rfl⟩ := mem_spriteCells.mp hq
      obtain ⟨hj, -⟩ := List.getElem?_eq_some_iff.mp hc
      obtain ⟨hrow, -⟩ := hsame
      dsimp only at hrow
      omega

/-! Toggling distinct cells -/

theorem pixel_toggleCell_same {p q : Nat × Nat} (h : SameCell p q) (cv : Canvas) :
    pixel (toggleCell cv p).1 q.1 q.2 = !pixel cv.1 q.1 q.2 :=
  (pixel_togglePixel ..).trans (if_pos h.symm)

theorem pixel_toggleCell_other {p q : Nat × Nat} (h : ¬ SameCell p q) (cv : Canvas) :
    pixel (toggleCell cv p).1 q.1 q.2 = pixel cv.1 q.1 q.2 :=
  (pixel_togglePixel ..).trans (if_neg fun hqp => h (SameCell.symm hqp))

theorem pixel_foldl_unlisted {cells : List (Nat × Nat)} {q : Nat × Nat} (h : ∀ p ∈ cells, ¬ SameCell p q) (cv : Canvas) :
    pixel (cells.foldl toggleCell cv).1 q.1 q.2 = pixel cv.1 q.1 q.2 := by
  induction cells generalizing cv with
  | nil => rfl
  | cons p cells ih =>
    obtain ⟨hp, hcells⟩ := List.forall_mem_cons.mp h
    rw [List.foldl_cons, ih hcells, pixel_toggleCell_other hp]

theorem pixel_foldl_listed {cells : List (Nat × Nat)} {q : Nat × Nat} (hd : cells.Pairwise fun p q => ¬ SameCell p q)
    (h : ∃ p ∈ cells, SameCell p q) (cv : Canvas) :
    pixel (cells.foldl toggleCell cv).1 q.1 q.2 = !pixel cv.1 q.1 q.2 := by
  induction cells generalizing cv with
  | nil => simp at h
  | cons p cells ih =>
    obtain ⟨hp, hcells⟩ := List.pairwise_cons.mp hd
    rw [List.foldl_cons]
    by_cases hpq : SameCell p q
    · have hrest : ∀ p' ∈ cells, ¬ SameCell p' q := fun p' hp' hq =>
        hp p' hp' ⟨hpq.1.trans hq.1.symm, hpq.2.trans hq.2.symm⟩
      rw [pixel_foldl_unlisted hrest, pixel_toggleCell_same hpq]
    · have hq : ∃ p' ∈ cells, SameCell p' q := ((List.exists_mem_cons_iff ..).mp h).resolve_left hpq
      rw [ih hcells hq, pixel_toggleCell_other hpq]

/-- The collision is that of the display before the sprite: no cell is drawn twice. -/
theorem collision_foldl {cells : List (Nat × Nat)} (hd : cells.Pairwise fun p q => ¬ SameCell p q) (cv : Canvas) :
    (cells.foldl toggleCell cv).2 = true ↔ cv.2 = true ∨ ∃ p ∈ cells, pixel cv.1 p.1 p.2 = true := by
  induction cells generalizing cv with
  | nil => simp
  | cons p cells ih =>
    obtain ⟨hp, hcells⟩ := List.pairwise_cons.mp hd
    have hkept : (∃ p' ∈ cells, pixel (toggleCell cv p).1 p'.1 p'.2 = true) ↔ ∃ p' ∈ cells, pixel cv.1 p'.1 p'.2 = true :=
      exists_congr fun p' => and_congr_right fun hp' => by rw [pixel_toggleCell_other (hp p' hp')]
    rw [List.foldl_cons, ih hcells, hkept, List.exists_mem_cons_iff, ← or_assoc, toggleCell, Bool.or_eq_true]

/-! DRW -/

/-- The cells DRW Vx, Vy, n draws in `s` (R162, R163). -/
def State.drawnCells (s : State) (x y : Index) (n : Fin 16) : List (Nat × Nat) :=
  spriteCells (s.reg y).toNat (s.reg x).toNat (s.bytesFromI n.val)

theorem State.drawnCells_pairwise (s : State) (x y : Index) (n : Fin 16) :
    (s.drawnCells x y n).Pairwise fun p q => ¬ SameCell p q :=
  spriteCells_pairwise _ _ _ (by rw [State.length_bytesFromI]; omega)

/-- A place lies under the sprite when some cell that is drawn stands for it. -/
theorem underSprite_iff {s : State} {x y : Index} {n : Fin 16} {r c : Nat} :
    UnderSprite s x y n r c ↔ ∃ p ∈ s.drawnCells x y n, r = p.1 % 32 ∧ c = p.2 % 64 := by
  simp only [UnderSprite, State.drawnCells, mem_spriteCells, State.getElem?_bytesFromI]
  constructor
  · rintro ⟨j, k, hj, hk, hr, hc, hbit⟩
    exact ⟨_, ⟨j, k, _, if_pos hj, hk, hbit, rfl⟩, hr, hc⟩
  · rintro ⟨_, ⟨j, k, b, hb, hk, hbit, rfl⟩, hr, hc⟩
    obtain ⟨hj, rfl⟩ : j < n.val ∧ s.byteAt (s.indexed j) = b := by simpa using hb
    exact ⟨j, k, hj, hk, hr, hc, hbit⟩

theorem UnderSprite.lt {s : State} {x y : Index} {n : Fin 16} {r c : Nat} (h : UnderSprite s x y n r c) :
    r < 32 ∧ c < 64 := by
  obtain ⟨p, -, rfl, rfl⟩ := underSprite_iff.mp h
  exact ⟨Nat.mod_lt _ (by decide), Nat.mod_lt _ (by decide)⟩

theorem underSprite_iff_sameCell {s : State} {x y : Index} {n : Fin 16} {r c : Nat} (hr : r < 32) (hc : c < 64) :
    UnderSprite s x y n r c ↔ ∃ p ∈ s.drawnCells x y n, SameCell p (r, c) := by
  simp only [underSprite_iff, SameCell, Nat.mod_eq_of_lt hr, Nat.mod_eq_of_lt hc, eq_comm]

/-- Some cell that is drawn was 1 exactly when some place under the sprite was. -/
theorem exists_underSprite_iff {s : State} {x y : Index} {n : Fin 16} (d : Display) :
    (∃ r c, UnderSprite s x y n r c ∧ pixel d r c = true) ↔ ∃ p ∈ s.drawnCells x y n, pixel d p.1 p.2 = true := by
  have hpixel (p : Nat × Nat) : pixel d (p.1 % 32) (p.2 % 64) = pixel d p.1 p.2 :=
    pixel_sameCell (p := (p.1 % 32, p.2 % 64)) ⟨Nat.mod_mod _ _, Nat.mod_mod _ _⟩ d
  constructor
  · rintro ⟨r, c, hunder, hset⟩
    obtain ⟨p, hp, rfl, rfl⟩ := underSprite_iff.mp hunder
    exact ⟨p, hp, (hpixel p).symm.trans hset⟩
  · rintro ⟨p, hp, hset⟩
    exact ⟨_, _, underSprite_iff.mpr ⟨p, hp, rfl, rfl⟩, (hpixel p).trans hset⟩

theorem State.drawn_disp_eq_foldl (s : State) (x y : Index) (n : Fin 16) :
    (s.drawn x y (s.bytesFromI n.val)).disp = ((s.drawnCells x y n).foldl toggleCell (s.disp, false)).1 := by
  rw [State.drawn_disp, drawSprite_eq_foldl]
  rfl

/-- VF after DRW is the collision flag (R162). -/
theorem State.drawn_vf (s : State) (x y : Index) (n : Fin 16) :
    (s.drawn x y (s.bytesFromI n.val)).reg vfIndex =
      flagByte ((s.drawnCells x y n).foldl toggleCell (s.disp, false)).2 := by
  rw [State.drawn, State.reg_setVF, if_pos rfl, drawSprite_eq_foldl]
  rfl

theorem effect_drw_inside {x y : Index} {n : Fin 16} {s : State} (h : s.i.toNat + n.val ≤ 0x1000 ∨ n = 0) :
    effect (.drw x y n) s = .ok (s.drawn x y (s.bytesFromI n.val)) := by
  rw [effect, State.readBytes_fromI (h.imp_right (congrArg Fin.val))]
  rfl

/-- Settles O43: DRW toggles the list of its cells, which are distinct places of the buffer. -/
theorem drawTogglesExactlyThePixelsUnderTheSprite : Obligations.DrawTogglesExactlyThePixelsUnderTheSprite := by
  intro x y n s hin
  have heffect := effect_drw_inside (x := x) (y := y) hin
  have hd := s.drawnCells_pairwise x y n
  have hcollision : ((s.drawnCells x y n).foldl toggleCell (s.disp, false)).2 = true ↔
      ∃ r c, UnderSprite s x y n r c ∧ pixel s.disp r c = true := by
    rw [collision_foldl hd, exists_underSprite_iff]
    exact or_iff_right Bool.false_ne_true
  refine ⟨_, exec_of_effect heffect, rfl, fun r c hr hc hunder => ?_, fun r c hr hc hunder => ?_, fun hset => ?_,
    fun hclear => ?_, fun r hr => State.reg_setReg_of_ne _ _ hr, effect_keepsAllBut heffect⟩
  · rw [State.drawn_disp_eq_foldl]
    exact pixel_foldl_listed hd ((underSprite_iff_sameCell hr hc).mp hunder) _
  · rw [State.drawn_disp_eq_foldl]
    exact pixel_foldl_unlisted (fun p hp hsame => hunder ((underSprite_iff_sameCell hr hc).mpr ⟨p, hp, hsame⟩)) _
  · rw [State.drawn_vf, hcollision.mpr hset]
    rfl
  · have hno : ¬ ∃ r c, UnderSprite s x y n r c ∧ pixel s.disp r c = true := by
      rintro ⟨r, c, hunder, hset⟩
      simp [hclear r c hunder] at hset
    rw [State.drawn_vf, Bool.eq_false_iff.mpr (mt hcollision.mp hno)]
    rfl

/-- The sprite of DRW lies at the same places in two states that agree on Vx, Vy, I and memory. -/
theorem underSprite_congr {s t : State} {x y : Index} (n : Fin 16) (hx : t.reg x = s.reg x) (hy : t.reg y = s.reg y)
    (hi : t.i = s.i) (hmem : ∀ a, t.byteAt a = s.byteAt a) (r c : Nat) :
    UnderSprite t x y n r c ↔ UnderSprite s x y n r c := by
  simp only [UnderSprite, hx, hy, hi, hmem]

/-- Settles O45: the second draw has the cells of the first, so each is toggled twice. -/
theorem drawingTwiceRestoresTheDisplay : Obligations.DrawingTwiceRestoresTheDisplay := by
  intro x y n s t u hx hy hin hdraw hdraw'
  obtain ⟨t', ht, -, htoggle, hkeep, -, -, hregs, hframe⟩ := drawTogglesExactlyThePixelsUnderTheSprite x y n s hin
  obtain rfl : t' = t := Host.Outcome.next.inj (ht.symm.trans hdraw)
  have hi : t'.i = s.i := hframe.index.resolve_left (by decide)
  have hsame := underSprite_congr n (hregs x hx) (hregs y hy) hi (hframe.memory.resolve_left (by decide))
  obtain ⟨u', hu, -, htoggle', hkeep', hset, hclear, -⟩ :=
    drawTogglesExactlyThePixelsUnderTheSprite x y n t' (by rwa [hi])
  obtain rfl : u' = u := Host.Outcome.next.inj (hu.symm.trans hdraw')
  refine ⟨display_ext fun r c hr hc => ?_, fun hvf => ?_, ?_⟩
  · by_cases hunder : UnderSprite s x y n r c
    · rw [htoggle' r c hr hc ((hsame r c).mpr hunder), htoggle r c hr hc hunder, Bool.not_not]
    · rw [hkeep' r c hr hc (mt (hsame r c).mp hunder), hkeep r c hr hc hunder]
  · by_contra hno
    have hzero : u'.reg vfIndex = 0 := hclear fun r c hunder => by
      have hunder' := (hsame r c).mp hunder
      have hone : pixel s.disp r c = true := by simpa using fun h => hno ⟨r, c, hunder', h⟩
      rw [htoggle r c hunder'.lt.1 hunder'.lt.2 hunder', hone, Bool.not_true]
    simp [hvf] at hzero
  · rintro ⟨r, c, hunder, hzero⟩
    refine hset ⟨r, c, (hsame r c).mpr hunder, ?_⟩
    rw [htoggle r c hunder.lt.1 hunder.lt.2 hunder, hzero, Bool.not_false]

end Sys2Proof.Machine
end

section
/-! PROOFS. Two steps in a row: a call that returns, and code that stores what is fetched next (spec/41_control_flow.md R111, R113,
spec/70_reset_and_hazards.md R257). -/

namespace Sys2Proof.Machine

/-- The word `00EE` is RET under both settings of UNLISTED_OPS (R74). -/
theorem decodeWord_00EE (ops : UnlistedOps) : decodeWord ops (wordOfBytes 0x00 0xEE) = .ok .ret :=
  decodeOfEncodedInstructionIsIt ops .ret rfl

theorem toNat_countDown_twice (b : Byte) : (countDown (countDown b)).toNat = b.toNat - 2 := by
  rw [toNat_countDown, toNat_countDown, Nat.sub_sub]

theorem State.fetchWord_called (s : State) (nnn : Addr12) :
    (s.called nnn).tick.fetchWord = wordOfBytes (s.byteAt nnn.toNat) (s.byteAt (nnn.toNat + 1)) := by
  have hpc : (s.called nnn).tick.pc.toNat = nnn.toNat := addrWord_toNat nnn
  rw [State.fetchWord, hpc]
  rfl

/-- Settles O54: the CALL pushes the advanced PC, and the RET it reaches pops it. -/
theorem callThenReturnComesBack : Obligations.CallThenReturnComesBack := by
  intro s t u nnn hf hroom hnnn hlow hhigh hst htu
  obtain rfl : (s.advance.called nnn).tick = t :=
    Host.Outcome.next.inj ((step_of_effect hf (effect_call_of_room (s := s.advance) nnn hroom)).symm.trans hst)
  have hret : (s.advance.called nnn).tick.Fetches .ret := by
    refine ⟨hf.1, (addrWord_toNat nnn).trans_le hnnn, ?_⟩
    have hword : (s.advance.called nnn).tick.fetchWord = wordOfBytes 0x00 0xEE := by
      rw [State.fetchWord_called, ← hlow, ← hhigh]
      rfl
    rw [hword, decodeWord_00EE]
  have hstack : (s.advance.called nnn).tick.advance.stack = s.stack ++ [s.pc + 2] := rfl
  obtain rfl := Host.Outcome.next.inj ((step_of_effect hret (effect_ret_of_append hstack)).symm.trans htu)
  refine ⟨by simp, by simp, by simp [hf.1.1], State.reg_congr (by simp), ?_, ?_⟩
  · simp [toNat_countDown_twice]
  · simp [toNat_countDown_twice]

/-- Settles O55: the first two bytes the dump stores stand where PC points after the step. -/
theorem storedBytesAreFetchedByTheNextStep : Obligations.StoredBytesAreFetchedByTheNextStep := by
  intro s t x hf hx hi hin h
  obtain ⟨u, hu, hstored, -, -, hframe⟩ := (registerDumpStoresAscendingOrAborts x s.advance).1 hin
  have hnone : u.fault = none := (hframe.fault.resolve_left (by decide)).trans hf.1.1
  obtain rfl : u.tick = t := Host.Outcome.next.inj ((step_of_effect hf (effect_of_exec hu hnone)).symm.trans h)
  have hpc : u.tick.pc = s.pc + 2 := hframe.pc.resolve_left (by decide)
  have haddr : u.tick.pc.toNat = s.advance.indexed 0 := by rw [hpc, ← hi]; rfl
  have hword : u.tick.fetchWord = s.reg 0 ++ s.reg 1 := by
    have h0 : u.tick.byteAt (s.advance.indexed 0) = s.reg 0 := hstored 0 (Fin.zero_le x)
    have h1 : u.tick.byteAt (s.advance.indexed 0 + 1) = s.reg 1 := hstored 1 (Fin.le_def.mpr hx)
    rw [State.fetchWord, haddr, h0, h1]
    rfl
  refine ⟨hpc, hword, fun i hdecode => ⟨⟨hnone, ?_⟩, ?_, ?_⟩⟩
  · exact (hframe.wait.resolve_left (by decide)).trans hf.1.2
  · rw [haddr]
    have hle : s.i.toNat + x.val ≤ 0xFFF := hin
    show s.i.toNat ≤ 0xFFE
    omega
  · rw [hword, State.tick_cfg, hframe.cfg, State.advance_cfg]
    exact hdecode

end Sys2Proof.Machine
end

section
/-! PROOFS. Construction and the host's operations (spec/43_display.md R166, R167, spec/60_exceptions.md R236,
spec/70_reset_and_hazards.md R250-R253). -/

namespace Sys2Proof.Machine

/-! The fields after construction, read through the accessors -/

theorem State.new_reg (cfg : Cfg) (r : Index) : (State.new cfg).reg r = 0 := by
  simp [State.reg, State.new]

theorem State.new_keyDown (cfg : Cfg) (k : Index) : (State.new cfg).keyDown k = false := by
  simp [State.keyDown, State.new]

theorem State.new_pixel (cfg : Cfg) (r c : Nat) : pixel (State.new cfg).disp r c = false := pixel_blankDisplay r c

theorem Memory.background_font {font : Font} {a : Nat} (h : a < 80) : Memory.background font a = font[a] := dif_pos h

theorem Memory.background_beyond {font : Font} {a : Nat} (h : 80 ≤ a) : Memory.background font a = 0 :=
  dif_neg (Nat.not_lt.mpr h)

/-- Settles O56: memory reads as its background, and every other field is what construction puts there. -/
theorem newMachineHasTheSpecsValues : Obligations.NewMachineHasTheSpecsValues := by
  rintro cfg s rfl
  exact ⟨rfl, fun _ h => Memory.background_font h, fun _ h => Memory.background_beyond h, State.new_reg cfg, rfl, rfl, rfl,
    rfl, rfl, rfl, State.new_pixel cfg, rfl, State.new_keyDown cfg, rfl, rfl⟩

/-- Settles O57: the state after construction, with memory and the configuration kept. -/
theorem hostResetKeepsEveryMemoryCell : Obligations.HostResetKeepsEveryMemoryCell := fun s =>
  ⟨s.hostReset, rfl, fun _ => rfl, rfl, State.new_reg s.cfg, rfl, rfl, rfl, rfl, rfl, State.new_pixel s.cfg, rfl,
    State.new_keyDown s.cfg, rfl, rfl⟩

/-! `load` -/

theorem transact_load_fits {s : State} {bytes : List Byte} (h : bytes.length ≤ maxProgramLength) :
    transact (.load bytes) s = .next (s.setBytes programStart bytes, .done) := by
  rw [transact, State.load, if_neg (Nat.not_lt.mpr h)]

theorem transact_load_tooLarge {s : State} {bytes : List Byte} (h : maxProgramLength < bytes.length) :
    transact (.load bytes) s = .next (s, .failed .loadTooLarge) := by
  rw [transact, State.load, if_pos h]

theorem State.setBytes_keepsAllBut (s : State) (a : Nat) (bs : List Byte) : KeepsAllBut [.memory] s (s.setBytes a bs) :=
  keepsAllBut_of_taking (by rw [State.setBytes_eq]; rfl)

/-- Settles O58: one run of stores from 0x200, or the failure. -/
theorem loadCopiesVerbatimOrFails : Obligations.LoadCopiesVerbatimOrFails := fun s bytes =>
  ⟨fun hfits => ⟨_, transact_load_fits hfits,
      fun _ hk => s.byteAt_setBytes_inside programStart (List.getElem?_eq_getElem hk),
      fun _ ha => s.byteAt_setBytes_outside ha, s.setBytes_keepsAllBut programStart bytes⟩,
    transact_load_tooLarge⟩

/-! The views and the keypad -/

theorem State.keyDown_setKey (s : State) (k j : Index) (down : Bool) :
    (s.setKey k down).keyDown j = if j = k then down else s.keyDown j := by
  simp only [State.keyDown, State.setKey, Fin.getElem_fin, Vector.getElem_set, Fin.ext_iff, eq_comm]

/-- Settles O59: each operation is one write, of `dirty`, of nothing, or of one key flag. -/
theorem hostViewsAndKeysDoWhatTheySay : Obligations.HostViewsAndKeysDoWhatTheySay := fun s k down =>
  ⟨⟨_, rfl, rfl, rfl, rfl⟩, rfl, ⟨s.setKey k down, rfl, by rw [State.keyDown_setKey, if_pos rfl],
    fun j hj => by rw [State.keyDown_setKey, if_neg hj], rfl⟩⟩

end Sys2Proof.Machine
end
